-- ==== Sys2Proof/Word.lean ====
section
/-! DEFINITION. The word widths of the command port and of the state (R7: WORD_W, INT_W, CMD_W, IMM_W, SHAMT_W). -/

namespace Sys2Proof

/-- A Word64: a 64-bit unsigned value (R9). -/
abbrev Word64 := BitVec 64

/-- A 32-bit word: the command word `CMD` and the signed operand buses `X`, `Y` (R41). -/
abbrev Word32 := BitVec 32

/-- The unsigned 16-bit addend field `IMM16` (R63). -/
abbrev Imm16 := BitVec 16

/-- The unsigned 8-bit fields `OP` and `SHAMT` of a command word (R60). -/
abbrev Byte := BitVec 8

/-- A response code `RCODE`, and the `CAUSE` field of `STATUS` (R42, R22). -/
abbrev Code := BitVec 4

end Sys2Proof
end

