-- ==== Sys2Proof/Syntax.lean ====
section
/-! DEFINITION. The commands of the block (R64, R65) and the causes for which it rejects a command word (R200). -/

namespace Sys2Proof

/-- One command of the opcode map (R64), with the fields of the command word that it uses (R65). The values on the
operand buses `A`, `B`, `X` and `Y` are no part of the command word: they are read from the request. -/
inductive Instr where
  /-- `MUL64` (R102): reads `A`, `B`. -/
  | mul64
  /-- `ADD64` (R104): reads `A`; the addend is the field `IMM16`. -/
  | add64 (imm16 : Imm16)
  /-- `SHR64` (R106): reads `A`; the shift amount is the field `SHAMT`. -/
  | shr64 (shamt : Byte)
  /-- `SEED` (R121): reads `X`. -/
  | seed
  /-- `NEXT32` (R123): reads no bus. -/
  | next32
  /-- `SAMPLEF` (R144): reads no bus. -/
  | samplef
  /-- `SAMPLE1` (R146): reads `X`. -/
  | sample1
  /-- `SAMPLE2` (R147): reads `X`, `Y`. -/
  | sample2
  /-- `RDSTAT` (R170): reads no bus. -/
  | rdstat
  deriving DecidableEq, Repr

/-- Why a command is rejected (R200). Code 0 means that the command was performed, so it is no member of this type,
and the codes 4 to 15 are never produced. -/
inductive ErrorCode where
  /-- Code 1: `OP` is a reserved value (R66). -/
  | illegalOpcode
  /-- Code 2: a field that the command does not use is nonzero (R67). -/
  | reservedField
  /-- Code 3: SHR64 with `SHAMT ≥ 64` (R62). -/
  | shamtRange
  deriving DecidableEq, Repr

/-- What a command word decodes to (R68): exactly one command or exactly one error. -/
inductive Decoded where
  | command (i : Instr)
  | error (c : ErrorCode)
  deriving DecidableEq, Repr

end Sys2Proof
end

