-- ==== Sys2Proof/WellFormed.lean ====
section
/-! DEFINITION. Which commands the block performs: the one condition on a field that its width does not already say
is the shift amount of SHR64 (R62). -/

namespace Sys2Proof

/-- A command whose fields are legal: SHR64's `SHAMT` is 0 to 63 (R62); ADD64's `IMM16` is any 16-bit value (R63). -/
def Instr.wellFormed : Instr → Bool
  | .mul64 => true
  | .add64 _ => true
  | .shr64 shamt => decide (shamt.toNat < 64)
  | .seed => true
  | .next32 => true
  | .samplef => true
  | .sample1 => true
  | .sample2 => true
  | .rdstat => true

end Sys2Proof
end

