-- ==== Sys2Proof/Decode.lean ====
section
/-! DEFINITION. Decoding and encoding of the 32-bit command word (spec/30_encoding.md, R60 to R71). -/

namespace Sys2Proof

/-- `OP = CMD[7:0]` (R60, R61). -/
def opField (cmd : Word32) : Byte := cmd.extractLsb' 0 8

/-- `SHAMT = CMD[15:8]` (R60, R62). -/
def shamtField (cmd : Word32) : Byte := cmd.extractLsb' 8 8

/-- `IMM16 = CMD[31:16]` (R60, R63). -/
def imm16Field (cmd : Word32) : Imm16 := cmd.extractLsb' 16 16

/-- The opcode map of R64: the command that `OP` selects, given the two other fields. The 247 other values of `OP`
are reserved (R66). -/
def commandOf (op : Byte) (shamt : Byte) (imm16 : Imm16) : Option Instr :=
  match op.toNat with
  | 0x01 => some .mul64
  | 0x02 => some (.add64 imm16)
  | 0x03 => some (.shr64 shamt)
  | 0x10 => some .seed
  | 0x11 => some .next32
  | 0x20 => some .samplef
  | 0x21 => some .sample1
  | 0x22 => some .sample2
  | 0x30 => some .rdstat
  | _ => none

/-- Decoding (R68), total on every 32-bit word. The order of the checks is the error precedence of R201. -/
def decode (cmd : Word32) : Decoded :=
  let op := opField cmd
  let shamt := shamtField cmd
  let imm16 := imm16Field cmd
  match commandOf op shamt imm16 with
  | none => .error .illegalOpcode
  | some i =>
    if op ≠ 0x03 ∧ shamt ≠ 0 then .error .reservedField
    else if op ≠ 0x02 ∧ imm16 ≠ 0 then .error .reservedField
    else if op = 0x03 ∧ 64 ≤ shamt.toNat then .error .shamtRange
    else .command i

/-- The `OP` of a command (R64). -/
def Instr.opcode : Instr → Byte
  | .mul64 => 0x01
  | .add64 _ => 0x02
  | .shr64 _ => 0x03
  | .seed => 0x10
  | .next32 => 0x11
  | .samplef => 0x20
  | .sample1 => 0x21
  | .sample2 => 0x22
  | .rdstat => 0x30

/-- The `SHAMT` field of a command's word: 0 for every command but SHR64 (R65). -/
def Instr.shamtOf : Instr → Byte
  | .shr64 shamt => shamt
  | .mul64 => 0
  | .add64 _ => 0
  | .seed => 0
  | .next32 => 0
  | .samplef => 0
  | .sample1 => 0
  | .sample2 => 0
  | .rdstat => 0

/-- The `IMM16` field of a command's word: 0 for every command but ADD64 (R65). -/
def Instr.imm16Of : Instr → Imm16
  | .add64 imm16 => imm16
  | .mul64 => 0
  | .shr64 _ => 0
  | .seed => 0
  | .next32 => 0
  | .samplef => 0
  | .sample1 => 0
  | .sample2 => 0
  | .rdstat => 0

/-- The command word of given fields: `CMD = zext_32(OP) | (zext_32(SHAMT) << 8) | (zext_32(IMM16) << 16)` (R71). -/
def wordOf (op : Byte) (shamt : Byte) (imm16 : Imm16) : Word32 :=
  op.setWidth 32 ||| (shamt.setWidth 32 <<< 8) ||| (imm16.setWidth 32 <<< 16)

/-- The command word of a command (R71). -/
def encode (i : Instr) : Word32 := wordOf i.opcode i.shamtOf i.imm16Of

/-- What the decoder reads from a row's bits as spec/opcode_table.json numbers them. Every row has the 32 bits of one
command word (R69), delivered whole, so bit 0 of the table is bit 0 of `CMD`. -/
def decodeTableWord (nbits w : Nat) : Option Instr :=
  match decode (BitVec.ofNat 32 (w % 2 ^ nbits)) with
  | .command i => some i
  | .error _ => none

end Sys2Proof
end

