-- ==== Sys2Proof/Machine/Limbs.lean ====
section
/-! DEFINITION. Word64 values as four 16-bit limbs (R9) and the three limb algorithms that are the reference for exact
results (R16, R108): `mul64` (R100), `add64` (R103), `shr64` (R105), with the narrow datapath of R101. Limb lists are
in index order, limb 0 first, and limbs are natural numbers computed exactly. -/

namespace Sys2Proof.Machine

/-- `limb(w, i) = w[16i+15 : 16i]` (R9). -/
def limb (w : Word64) (i : Nat) : Nat := (w.extractLsb' (16 * i) 16).toNat

/-- The limb list `[l0, l1, l2, l3]` of a Word64 (R9). -/
def limbs (w : Word64) : List Nat := [limb w 0, limb w 1, limb w 2, limb w 3]

/-- `value(l) = Σ l[i] · 65536^i` (R9). -/
def limbValue : List Nat → Nat
  | [] => 0
  | l :: ls => l + 65536 * limbValue ls

/-- The Word64 of the low four limbs of a list: `{l[3], l[2], l[1], l[0]}`, any higher limb discarded (R9, R27). -/
def ofLimbs (l : List Nat) : Word64 := BitVec.ofNat 64 (limbValue (l.take 4))

/-- The inner loop of R100 for one limb `bj` of `b`: along the limbs of `a` and the window of `p` that begins at
position `j`, with carry `k`. It answers the new limbs of the window and, last, `p[j+4] <- k`. -/
def mulRow (bj : Nat) : List Nat → List Nat → Nat → List Nat
  | ai :: as, pij :: ps, k =>
    let t := ai * bj + pij + k
    t % 65536 :: mulRow bj as ps (t / 65536)
  | _, _, k => [k]

/-- The outer loop of R100 over the limbs of `b`, on the window of `p` that begins at the current position. The lowest
limb of a finished row is final; the next row works on the limbs above it. -/
def mulRows (as : List Nat) : List Nat → List Nat → List Nat
  | [], window => window
  | bj :: bs, window =>
    match mulRow bj as window 0 with
    | [] => []
    | lo :: rest => lo :: mulRows as bs rest

/-- `mul64(a, b)` (R100): the schoolbook product into eight limbs, of which the upper four are discarded. -/
def mul64 (a b : Word64) : Word64 := ofLimbs (mulRows (limbs a) (limbs b) [0, 0, 0, 0])

/-- The loop of R103: add `k` to the lowest limb and carry upward. The carry out of the last limb is discarded. -/
def addCarry : List Nat → Nat → List Nat
  | [], _ => []
  | l :: ls, k =>
    let t := l + k
    t % 65536 :: addCarry ls (t / 65536)

/-- `add64(a, n)` (R103), defined by the spec for the 16-bit addends only. That it is total, and so has a value for
`n ≥ 65536` too, is the model's choice: no command reaches such an addend (I16 of
spec/93_implementation_defined.md). Log entry 15. -/
def add64 (a : Word64) (n : Nat) : Word64 := ofLimbs (addCarry (limbs a) n)

/-- Phase 1 of R105: move whole limbs down by `w`. -/
def shiftLimbs (a : Word64) (w : Nat) : List Nat :=
  [0, 1, 2, 3].map fun i => if i + w ≤ 3 then limb a (i + w) else 0

/-- Phase 2 of R105: shift each limb by `s < 16`, from the top limb down, carrying its low bits to the limb below.
It answers the limbs and the carry out of the lowest one. -/
def shiftBits (s : Nat) : List Nat → List Nat × Nat
  | [] => ([], 0)
  | x :: xs =>
    let above := shiftBits s xs
    ((x >>> s ||| above.2) :: above.1, (x % 2 ^ s) <<< (16 - s))

/-- `shr64(a, n)` (R105), defined by the spec for `0 ≤ n ≤ 63` only. That it is total, and so is 0 for `n ≥ 64`, is the
model's choice: no command reaches such an amount (R106; I2 of spec/93_implementation_defined.md). Log entry 16. -/
def shr64 (a : Word64) (n : Nat) : Word64 := ofLimbs (shiftBits (n % 16) (shiftLimbs a (n / 16))).1

/-- One row of the datapath of R101: 16-bit limbs and carry, and an accumulator `t` of 32 bits that wraps. A row is as
long as its window, so a partial product with `i + j > 3` is never formed. -/
def datapathRow (bj : BitVec 16) : List (BitVec 16) → List (BitVec 16) → BitVec 16 → List (BitVec 16)
  | ai :: as, pij :: ps, k =>
    let t : BitVec 32 := ai.setWidth 32 * bj.setWidth 32 + pij.setWidth 32 + k.setWidth 32
    t.extractLsb' 0 16 :: datapathRow bj as ps (t.extractLsb' 16 16)
  | _, _, _ => []

/-- The rows of the datapath of R101; the window shrinks by its final lowest limb after each row, and nothing is
written to `p[4..7]`. -/
def datapathRows (as : List (BitVec 16)) : List (BitVec 16) → List (BitVec 16) → List (BitVec 16)
  | [], _ => []
  | bj :: bs, window =>
    match datapathRow bj as window 0 with
    | [] => []
    | lo :: rest => lo :: datapathRows as bs rest

/-- The limbs of a Word64 as 16-bit fields. -/
def limbFields (w : Word64) : List (BitVec 16) :=
  [w.extractLsb' 0 16, w.extractLsb' 16 16, w.extractLsb' 32 16, w.extractLsb' 48 16]

/-- The multiplier that R101 allows: a 32-bit accumulator, a 16-bit carry, and only the partial products that reach
the result. No command uses it; that it computes `mul64` is a statement about the spec. -/
def mul64Datapath (a b : Word64) : Word64 :=
  match datapathRows (limbFields a) (limbFields b) [0, 0, 0, 0] with
  | [p0, p1, p2, p3] => p3 ++ p2 ++ p1 ++ p0
  | _ => 0

end Sys2Proof.Machine
end

