-- ==== Sys2Proof/Config.lean ====
section
/-! DEFINITION. What the spec leaves to one implementation (R7): the open parameter `S_RESET`. `LATENCY` has no
model (R236: a model has no time) and `N_INST` is the length of a platform's list of instances (Machine/Platform.lean).
The fixed constants of R7 stand beside the definitions that use them. -/

namespace Sys2Proof.Config

/-- The identity string of R2. It carries no semantics. -/
def identity : String := "PRNG64 (openwrt/luci#sub007)"

/-- `S_RESET` of instance `j` of a platform (R7, R29, R30): OPEN, any 64-bit value, so it has no body and no proof
can see its value. Log entry 1. -/
opaque sResetOf : Nat → Word64

/-- `S_RESET` of the one instance that `Sys2Proof.core` is: instance 0 of its platform. -/
def sReset : Word64 := sResetOf 0

end Sys2Proof.Config
end

