-- ==== Sys2Proof/Machine/State.lean ====
section
/-! DEFINITION. The state of one instance (R31) with its command port (R41, R42) as plain data, and reset (R29). The
block has no memory, no program counter, no register file and no mode (R25, R26, R40, R210). -/

namespace Sys2Proof.Machine

/-- One request on the command port (R41). -/
structure Request where
  /-- `CMD`, the command word (R60). -/
  cmd : Word32
  /-- `A`, the first Word64 operand. -/
  a : Word64
  /-- `B`, the second Word64 operand. -/
  b : Word64
  /-- `X`, the first 32-bit signed operand. -/
  x : Word32
  /-- `Y`, the second 32-bit signed operand. -/
  y : Word32
  deriving DecidableEq, Repr

/-- One response on the command port (R42). -/
structure Response where
  /-- `RCODE`: 0 if the command was performed, otherwise its error code (R200). -/
  rcode : Code
  /-- `RESULT`: the command's result (R65), or 0 when `RCODE ≠ 0`. -/
  result : Word64
  deriving DecidableEq, Repr

/-- What reaches the block from outside, one at a time (R43, R230). -/
inductive Input where
  /-- The port takes this request. -/
  | request (r : Request)
  /-- Power-on or the platform's reset input (R230). `outstanding` is the command that the reset cuts off, if there
  is one: it gets no response (R230, I8 of spec/93_implementation_defined.md). -/
  | reset (outstanding : Option Request)
  deriving DecidableEq, Repr

/-- One instance of the block and its port. `S`, `FAULT` and `CAUSE` are the whole of the block's own state (R31);
the three other fields are the port as the outside world sees it, and no command can read an earlier request or an
earlier response out of them (R25). -/
structure State where
  /-- The generator register `S` (R20). -/
  S : Word64
  /-- `STATUS.FAULT` (R22, R23). -/
  FAULT : Bool
  /-- `STATUS.CAUSE` (R22, R24). -/
  CAUSE : Code
  /-- The request that the port has taken last: the buses of the command being performed (R41). -/
  req : Request
  /-- The last response delivered since reset (R42), if any. -/
  resp : Option Response
  /-- The inputs still to come, in the order in which the port takes them (R43, R55). Log entry 2. -/
  inputs : List Input
  deriving DecidableEq, Repr

/-- The fault reasons of a step: there are none, because an error only updates `STATUS` and answers a code (R202) and
the block has no halted, locked or stuck state (R206). -/
inductive Fault where
  deriving DecidableEq, Repr

/-- The refusals of a step. -/
inductive Refusal where
  /-- Raised by an arm of `exec` whose instruction has no meaning in this model yet. Safe: nothing can be proved of
  what such an instruction does. Every instruction has its meaning, so nothing raises it. -/
  | notModelled (mnemonic : String)
  deriving DecidableEq, Repr

/-- What the buses hold before the first request: zeros. No command reads them, since the port takes a request before
each command (R43). Log entry 3. -/
def Request.idle : Request := { cmd := 0, a := 0, b := 0, x := 0, y := 0 }

/-- The state after a reset (R29) of an instance whose `S_RESET` is `sReset`, with nothing on the port. -/
def State.resetWith (sReset : Word64) : State :=
  { S := sReset, FAULT := false, CAUSE := 0, req := Request.idle, resp := none, inputs := [] }

/-- The machine right after reset (R29, R230): `S` is the open parameter `S_RESET`, `STATUS` is 0. -/
def State.reset : State := State.resetWith Config.sReset

end Sys2Proof.Machine
end

