-- ==== Sys2Proof/Machine/Operands.lean ====
section
/-! DEFINITION. The operand forms: what a command reads from the buses of its request (R41, R44, R45, R46), and the
conversions between fields and integers (R10). -/

namespace Sys2Proof.Machine

/-- `sint_32(v)`: a 32-bit field read as two's complement (R10). -/
def sint32 (v : Word32) : Int := v.toInt

/-- `wrap_32(i)`: the 32-bit field whose unsigned value is `i mod 2^32` (R10). -/
def wrap32 (i : Int) : Word32 := BitVec.ofInt 32 i

/-- `zext_64(v)` of a 32-bit field (R10). -/
def zext64 (v : Word32) : Word64 := v.setWidth 64

/-- `sext_64(v)` of a 32-bit field (R10). -/
def sext64 (v : Word32) : Word64 := v.signExtend 64

/-- The Word64 on bus `A` (R44). -/
def State.busA (s : State) : Word64 := s.req.a

/-- The Word64 on bus `B` (R44). -/
def State.busB (s : State) : Word64 := s.req.b

/-- The signed integer on bus `X` (R45). -/
def State.busX (s : State) : Int := sint32 s.req.x

/-- The signed integer on bus `Y` (R45). -/
def State.busY (s : State) : Int := sint32 s.req.y

/-- The addend of ADD64, `zext_64(IMM16)` (R63, R104). -/
def addend (imm16 : Imm16) : Nat := imm16.toNat

/-- The shift amount of SHR64: `SHAMT`, zero-extended, neither scaled nor sign-extended (R62). -/
def shiftAmount (shamt : Byte) : Nat := shamt.toNat

end Sys2Proof.Machine
end

