-- ==== Sys2Proof/Machine/Flags.lean ====
section
/-! DEFINITION. The status register `STATUS` (R22): its layout, its one flag `FAULT` and its field `CAUSE`, and the
only thing that writes them, the error path (R203). No command sets a flag (R27). -/

namespace Sys2Proof.Machine

/-- The error codes of R200. -/
def errorCode : ErrorCode → Code
  | .illegalOpcode => 1
  | .reservedField => 2
  | .shamtRange => 3

/-- `STATUS` as a 64-bit value (R22, R170): `CAUSE` at bits 7:4, `FAULT` at bit 0, every other bit 0. -/
def State.status (s : State) : Word64 := ((s.CAUSE ++ (0 : BitVec 3)) ++ BitVec.ofBool s.FAULT).setWidth 64

/-- `update_status(c)` (R203): the first cause since reset is kept, and `FAULT` is set. -/
def State.updateStatus (c : ErrorCode) (s : State) : State :=
  { s with CAUSE := if s.FAULT then s.CAUSE else errorCode c, FAULT := true }

end Sys2Proof.Machine
end

