-- ==== Sys2Proof/Machine/Ops.lean ====
section
/-! DEFINITION. The operations that every command shares: taking an input from the port (R43), the success path
`respond` (R204), the error path `reject` (R202), reset (R230) and the write of `S`. The error path is the block's only
exception: no state is saved, no mode changes and there is no return from it (R208, R209). -/

namespace Sys2Proof.Machine

/-- The port takes the request `r`; the inputs `rest` are still to come (R41, R43). -/
def State.take (r : Request) (rest : List Input) (s : State) : State := { s with req := r, inputs := rest }

/-- `S <- v` (R11, R20). -/
def State.setS (v : Word64) (s : State) : State := { s with S := v }

/-- `respond(0, value)` (R11, R204): the command was performed. -/
def State.respond (value : Word64) (s : State) : State := { s with resp := some { rcode := 0, result := value } }

/-- `reject(c)` (R202): the error path, which updates `STATUS` and answers `RCODE = c`, `RESULT = 0`. -/
def State.reject (c : ErrorCode) (s : State) : State :=
  { s.updateStatus c with resp := some { rcode := errorCode c, result := 0 } }

/-- A reset (R230), with the inputs `rest` still to come: the reset state of an instance with this `S_RESET`. -/
def resetTo (sReset : Word64) (rest : List Input) : State := { State.resetWith sReset with inputs := rest }

end Sys2Proof.Machine
end

