-- ==== Sys2Proof/Machine/Arith.lean ====
section
/-! DEFINITION. The Word64 arithmetic unit (spec/40_arith.md): MUL64, ADD64, SHR64. -/

namespace Sys2Proof.Machine

/-- MUL64 (R102). -/
def execMul64 (s : State) : Host.Outcome State Fault Refusal :=
  .next (s.respond (mul64 s.busA s.busB))

/-- ADD64 (R104). -/
def execAdd64 (imm16 : Imm16) (s : State) : Host.Outcome State Fault Refusal :=
  .next (s.respond (add64 s.busA (addend imm16)))

/-- SHR64 (R106). A shift amount of 64 or more takes the error path; the decoder already rejects it (R68), so that
branch is not reached through the port. Log entry 8. -/
def execShr64 (shamt : Byte) (s : State) : Host.Outcome State Fault Refusal :=
  if 64 ≤ shiftAmount shamt then .next (s.reject .shamtRange)
  else .next (s.respond (shr64 s.busA (shiftAmount shamt)))

end Sys2Proof.Machine
end

