-- ==== Sys2Proof/Machine/Control.lean ====
section
/-! DEFINITION. The control command (spec/43_control.md): RDSTAT. -/

namespace Sys2Proof.Machine

/-- RDSTAT (R170): answers `STATUS` and clears nothing. -/
def execRdstat (s : State) : Host.Outcome State Fault Refusal :=
  .next (s.respond s.status)

end Sys2Proof.Machine
end

