-- ==== Sys2Proof/Machine/Lcg.lean ====
section
/-! DEFINITION. The linear-congruential generator (spec/41_lcg.md): the step and draw functions, SEED and NEXT32. -/

namespace Sys2Proof.Machine

/-- `LCG_M`, from its four limbs, little-endian (R120). -/
def lcgM : Word64 := ofLimbs [0x7f2d, 0x4c95, 0xf42d, 0x5851]

/-- `LCG_C` (R120). -/
def lcgC : Nat := 1

/-- `OUT_SHIFT` (R7, R122). -/
def outShift : Nat := 33

/-- `lcg_step(s)` (R122). -/
def lcgStep (v : Word64) : Word64 := add64 (mul64 v lcgM) lcgC

/-- The output of a draw from the new value of `S` (R122): limbs 1 and 0 of `shr64(S, 33)`, as a 32-bit field. -/
def drawOutput (v : Word64) : Word32 :=
  let r := shr64 v outShift
  wrap32 (((limb r 1 <<< 16) ||| limb r 0 : Nat) : Int)

/-- `lcg_draw()` (R122): steps `S` once and answers the 32-bit output with the new state. -/
def lcgDraw (s : State) : Word32 × State :=
  let v := lcgStep s.S
  (drawOutput v, s.setS v)

/-- SEED (R121). -/
def execSeed (s : State) : Host.Outcome State Fault Refusal :=
  .next ((s.setS (zext64 (wrap32 (s.busX - 1)))).respond 0)

/-- NEXT32 (R123). -/
def execNext32 (s : State) : Host.Outcome State Fault Refusal :=
  let (out, t) := lcgDraw s
  .next (t.respond (sext64 out))

end Sys2Proof.Machine
end

