-- ==== Sys2Proof/Machine/Binary64.lean ====
section
/-! DEFINITION. The binary64 primitives of the sample mux (R140, R141), on exact rationals. -/

namespace Sys2Proof.Machine

/-- `2^e` for an integer `e`, as an exact rational. -/
def pow2 : Int → Rat
  | .ofNat n => mkRat (2 ^ n) 1
  | .negSucc n => mkRat 1 (2 ^ (n + 1))

/-- `|x|`. -/
def absRat (x : Rat) : Rat := mkRat x.num.natAbs x.den

/-- The integer `e` with `2^e <= |x| < 2^(e+1)`, for `x ≠ 0` (R140): the difference of the binary lengths of numerator
and denominator, or one less. -/
def binade (x : Rat) : Int :=
  let e : Int := (Nat.log2 x.num.natAbs : Int) - (Nat.log2 x.den : Int)
  if pow2 e ≤ absRat x then e else e - 1

/-- The integer nearest `m`, and the even one if `m` is exactly halfway (R140). -/
def nearestEven (m : Rat) : Int :=
  let f := m.floor
  let d := m - (f : Rat)
  if d < mkRat 1 2 then f
  else if mkRat 1 2 < d then f + 1
  else if f % 2 = 0 then f else f + 1

/-- `RNE64(x)` (R140): `x` rounded to the nearest binary64, ties to the even significand, valid for `e >= -1022` and
`|x| < 2^1024`. Its value for any other `x` is the model's choice, which no command reaches. Log entry 17. -/
def rne64 (x : Rat) : Rat :=
  if x = 0 then 0
  else
    let ul := pow2 (binade x - 52)
    let m := nearestEven (absRat x / ul)
    (x.num.sign : Rat) * (m : Rat) * ul

/-- `bits64(f)` (R141): sign at bit 63, exponent biased by 1023 at bits 62:52, fraction at bits 51:0, of a binary64
value that is 0 or normal; `bits64(+0) = 0`. The rule's formula is for positive values; log entry 9 has the negative,
log entry 17 every value that is neither 0 nor normal. -/
def bits64 (f : Rat) : Word64 :=
  if f = 0 then 0
  else
    let e := binade f
    let m := (absRat f / pow2 (e - 52)).floor
    BitVec.ofBool (decide (f < 0)) ++ BitVec.ofInt 11 (e + 1023) ++ BitVec.ofInt 52 (m - 2 ^ 52)

end Sys2Proof.Machine
end

