-- ==== Sys2Proof/Machine/Sample.lean ====
section
/-! DEFINITION. The sample mux (spec/42_sample.md): the sample functions, SAMPLEF, SAMPLE1, SAMPLE2. -/

namespace Sys2Proof.Machine

/-- `M31 = 2^31 − 1` (R7). -/
def m31 : Nat := 0x7FFFFFFF

/-- The draw's output reduced mod `M31` (R142, R15). -/
def drawResidue (out : Word32) : Int := sint32 out % (m31 : Int)

/-- `r`, the binary64 sample `RNE64(q / M31)` (R142). -/
def sampleOf (q : Int) : Rat := rne64 (mkRat q m31)

/-- The scaling of a sample `r` to `floor(RNE64(r · k)) + l` with the exact width `k = u − l + 1` (R145). -/
def scaleSample (r : Rat) (l u : Int) : Int :=
  let k := u - l + 1
  (rne64 (r * (k : Rat))).floor + l

/-- `sample_r()` (R142): one draw, scaled to a binary64 in `[0, 1)`. -/
def sampleR (s : State) : Rat × State :=
  let (out, t) := lcgDraw s
  (sampleOf (drawResidue out), t)

/-- `sample_range(l, u)` (R145): one draw, scaled to an integer. The rule has 32-bit signed bounds; the value for any other
bounds is the model's choice, which no command reaches. Log entry 17. -/
def sampleRange (l u : Int) (s : State) : Int × State :=
  let (r, t) := sampleR s
  (scaleSample r l u, t)

/-- SAMPLEF (R144). -/
def execSamplef (s : State) : Host.Outcome State Fault Refusal :=
  let (r, t) := sampleR s
  .next (t.respond (bits64 r))

/-- SAMPLE1 (R146): the lower bound is 1. -/
def execSample1 (s : State) : Host.Outcome State Fault Refusal :=
  let (res, t) := sampleRange 1 s.busX s
  .next (t.respond (sext64 (wrap32 res)))

/-- SAMPLE2 (R147). -/
def execSample2 (s : State) : Host.Outcome State Fault Refusal :=
  let (res, t) := sampleRange s.busX s.busY s
  .next (t.respond (sext64 (wrap32 res)))

end Sys2Proof.Machine
end

