-- ==== Sys2Proof/Machine/Dispatch.lean ====
section
/-! DEFINITION. The meaning of each command (R64), one arm per constructor. -/

namespace Sys2Proof.Machine

def exec (i : Instr) (s : State) : Host.Outcome State Fault Refusal :=
  match i with
  | .mul64 => Sys2Proof.Machine.execMul64 s
  | .add64 imm16 => Sys2Proof.Machine.execAdd64 imm16 s
  | .shr64 shamt => Sys2Proof.Machine.execShr64 shamt s
  | .seed => Sys2Proof.Machine.execSeed s
  | .next32 => Sys2Proof.Machine.execNext32 s
  | .samplef => Sys2Proof.Machine.execSamplef s
  | .sample1 => Sys2Proof.Machine.execSample1 s
  | .sample2 => Sys2Proof.Machine.execSample2 s
  | .rdstat => Sys2Proof.Machine.execRdstat s

end Sys2Proof.Machine
end

