-- ==== Sys2Proof/Machine/Step.lean ====
section
/-! DEFINITION. One step of an instance: the port takes one input and the block deals with it whole (R43). -/

namespace Sys2Proof.Machine

/-- The command whose request the port has taken is decoded (R68) and performed, or rejected by the error path
(R202). -/
def perform (s : State) : Host.Outcome State Fault Refusal :=
  match decode s.req.cmd with
  | .command i => exec i s
  | .error c => .next (s.reject c)

/-- One step of an instance whose `S_RESET` is `sReset`. With no input nothing happens (R207; log entry 4). -/
def stepWith (sReset : Word64) (s : State) : Host.Outcome State Fault Refusal :=
  match s.inputs with
  | [] => .next s
  | .request r :: rest => perform (s.take r rest)
  | .reset _ :: rest => .next (resetTo sReset rest)

/-- One step of the machine: instance 0 of its platform. -/
def step (s : State) : Host.Outcome State Fault Refusal := stepWith Config.sReset s

/-- `s` with a request of the given command word as the next input of the port. The host issues every command (R26),
so this stands for a host that issues that word with the bus values the port holds. Log entry 5. -/
def State.withFetchWord (s : State) (nbits w : Nat) : State :=
  { s with inputs := .request { s.req with cmd := BitVec.ofNat 32 (w % 2 ^ nbits) } :: s.inputs }

end Sys2Proof.Machine
end

