-- ==== Sys2Proof/Machine/HostPort.lean ====
section
/-! DEFINITION. The host's duties at the port: how its numbers become bus values (R56, R57) and how its command list
becomes requests (R70). Nothing here is part of the block. -/

namespace Sys2Proof.Machine

/-- A host number: a finite one, or a NaN or an infinity (R56). -/
inductive HostNumber where
  | finite (x : Rat)
  | notFinite
  deriving DecidableEq, Repr

/-- `trunc`: toward zero (R56). -/
def truncate (x : Rat) : Int := x.num.tdiv x.den

/-- The 32-bit word for `X` or `Y` (R56): `wrap_32(trunc(x))`, and 0 for a NaN or an infinity. -/
def coerce : HostNumber → Word32
  | .finite x => wrap32 (truncate x)
  | .notFinite => 0

/-- The bus form of a host's limb array (R57): none for one that is not a valid Word64. -/
def busOfLimbs (l : List Nat) : Option Word64 :=
  if l.length = 4 ∧ l.all (fun x => decide (x < 65536)) = true then some (ofLimbs l) else none

/-- One line of a host's command list (R70), `SAMPLE` and `.word` among them. -/
inductive Asm where
  | mul64 (a b : Word64)
  | add64 (a : Word64) (imm : Int)
  | shr64 (a : Word64) (n : Int)
  | seed (x : Int)
  | next32
  | samplef
  | sample1 (u : Int)
  | sample2 (l u : Int)
  | rdstat
  /-- The pseudo-command `SAMPLE` with its operands. -/
  | sample (operands : List Int)
  /-- `.word w` with its bus operands after it. R70 says only that: that they are all four, with `x` and `y` as 32-bit
  words that no range refuses, is the model's choice. Log entry 18. -/
  | word (w : Word32) (a b : Word64) (x y : Word32)
  deriving DecidableEq, Repr

/-- A 32-bit operand in signed range (R70). -/
def inSigned32 (i : Int) : Bool := decide (-2 ^ 31 ≤ i ∧ i ≤ 2 ^ 31 - 1)

/-- A request that drives only the buses given; a bus that a command does not read may hold any value (R46), and this
assembler leaves it 0. Log entry 6. -/
def requestOf (i : Instr) (a b : Word64) (x y : Int) : Request :=
  { cmd := encode i, a := a, b := b, x := wrap32 x, y := wrap32 y }

/-- The assembler of R70: none for an immediate or an operand out of its range. -/
def assemble : Asm → Option Request
  | .mul64 a b => some (requestOf .mul64 a b 0 0)
  | .add64 a imm => if 0 ≤ imm ∧ imm ≤ 65535 then some (requestOf (.add64 (BitVec.ofInt 16 imm)) a 0 0 0) else none
  | .shr64 a n => if 0 ≤ n ∧ n ≤ 63 then some (requestOf (.shr64 (BitVec.ofInt 8 n)) a 0 0 0) else none
  | .seed x => if inSigned32 x then some (requestOf .seed 0 0 x 0) else none
  | .next32 => some (requestOf .next32 0 0 0 0)
  | .samplef => some (requestOf .samplef 0 0 0 0)
  | .sample1 u => if inSigned32 u then some (requestOf .sample1 0 0 u 0) else none
  | .sample2 l u => if inSigned32 l && inSigned32 u then some (requestOf .sample2 0 0 l u) else none
  | .rdstat => some (requestOf .rdstat 0 0 0 0)
  | .sample [] => some (requestOf .samplef 0 0 0 0)
  | .sample [u] => if inSigned32 u then some (requestOf .sample1 0 0 u 0) else none
  | .sample [l, u] => if inSigned32 l && inSigned32 u then some (requestOf .sample2 0 0 l u) else none
  | .sample (_ :: _ :: _ :: _) => none
  | .word w a b x y => some { cmd := w, a := a, b := b, x := x, y := y }

end Sys2Proof.Machine
end

