-- ==== Sys2Proof/Safety.lean ====
section
/-! DEFINITION. The terms in which claims about runs are made: the legal values of `STATUS`, runs of steps, what
the port carries in a run, and the kinds of requests. -/

namespace Sys2Proof

/-- A command that makes one draw (R126). -/
def Instr.draws : Instr → Bool
  | .next32 => true
  | .samplef => true
  | .sample1 => true
  | .sample2 => true
  | .mul64 => false
  | .add64 _ => false
  | .shr64 _ => false
  | .seed => false
  | .rdstat => false

end Sys2Proof

namespace Sys2Proof.Machine

/-- The legal values of `STATUS` (R22, R24, R200): `CAUSE` is 0 while `FAULT` is 0, and one of the codes 1 to 3
while `FAULT` is 1. -/
abbrev State.StatusLegal (s : State) : Prop :=
  (s.FAULT = false → s.CAUSE = 0) ∧ (s.FAULT = true → 1 ≤ s.CAUSE.toNat ∧ s.CAUSE.toNat ≤ 3)

/-- `k` steps from `s`. -/
def run (k : Nat) (s : State) : Host.Outcome State Fault Refusal := Host.Core.run Sys2Proof.core k s

/-- A safe run of `k` steps: every step answers a next state. -/
def SafeRun (k : Nat) (s : State) : Prop := ∃ t, run k s = .next t

/-- `s` with the requests `rs` as the inputs still to come. -/
def State.withRequests (rs : List Request) (s : State) : State := { s with inputs := rs.map Input.request }

/-- What the port carries in `k` steps, in order (R42, R43): each request taken, with its response. A reset and an
idle step carry no response. -/
def exchanges : Nat → State → List (Request × Response)
  | 0, _ => []
  | k + 1, s =>
    match step s with
    | .next t =>
      match s.inputs with
      | .request r :: _ => t.resp.toList.map (fun answer => (r, answer)) ++ exchanges k t
      | _ => exchanges k t
    | .fault _ => []
    | .refused _ => []

/-- A request whose word decodes to a draw command, so that the block makes one draw for it. -/
def Request.draws (r : Request) : Bool :=
  match decode r.cmd with
  | .command i => i.draws
  | .error _ => false

/-- A request whose word decodes to SEED. -/
def Request.seeds (r : Request) : Bool := decide (decode r.cmd = .command .seed)

/-- A finite binary64 value: an integer significand below `2^53` scaled by a power of two in range (R140, R141). -/
def IsBinary64 (y : ℚ) : Prop := ∃ m e : ℤ, |m| < 2 ^ 53 ∧ -1074 ≤ e ∧ e ≤ 971 ∧ y = (m : ℚ) * 2 ^ e

/-- The error code for which a request is rejected, if it is (R200, R201). -/
def Request.rejectedFor (r : Request) : Option ErrorCode :=
  match decode r.cmd with
  | .command _ => none
  | .error c => some c

end Sys2Proof.Machine
end

