-- ==== Sys2Proof/Machine/Color.lean ====
section
/-! DEFINITION. Color derivation, host software over the block's commands (spec/45_host_color.md, R180 to R184). R6
leaves it out of the block; it is written here so that the source's main client of the block is not lost. Other
requesters share the instance with it: exclusive use is a premise (R184, R233, R237), and is not built in. -/

namespace Sys2Proof.Machine

/-- The binary64 that a 64-bit encoding stands for (R141, read the other way); none for an infinity or a NaN.
Log entry 9. -/
def binary64Of (v : Word64) : Option Rat :=
  let sign : Rat := if v.getLsbD 63 then -1 else 1
  let e : Nat := (v.extractLsb' 52 11).toNat
  let fraction : Nat := (v.extractLsb' 0 52).toNat
  if e = 0x7FF then none
  else if e = 0 then some (sign * (fraction : Rat) * pow2 (-1074))
  else some (sign * ((2 ^ 52 + fraction : Nat) : Rat) * pow2 ((e : Int) - 1075))

/-- An input that leaves a sequence of draws alone (R234): a request that is neither SEED nor a draw, a rejected one
too. A reset is none, since it writes `S` (R230). -/
def Input.quiet : Input → Bool
  | .request r => !(r.seeds || r.draws)
  | .reset _ => false

/-- What reaches the instance from others while the host derives a color (R55): one list of inputs for each of the
host's four commands, taken by the port after the host's command before it and ahead of that one. Log entry 13. -/
structure ColorArrivals where
  beforeSeed : List Input
  beforeR : List Input
  beforeG : List Input
  beforeF : List Input
  deriving DecidableEq, Repr

/-- Nothing from anyone else. -/
def ColorArrivals.empty : ColorArrivals := { beforeSeed := [], beforeR := [], beforeG := [], beforeF := [] }

/-- The premise of R184 and R237: nothing between the host's SEED and its SAMPLEF seeds, draws or resets. What comes
before the SEED may be anything. -/
def ColorArrivals.exclusive (arrivals : ColorArrivals) : Bool :=
  (arrivals.beforeR ++ arrivals.beforeG ++ arrivals.beforeF).all Input.quiet

/-- The host issues one line: the port takes what already waits there, then `before`, then the line's request, and the
host takes the response to its own request: none if the line does not assemble or the command is rejected. -/
def hostIssue (before : List Input) (line : Asm) (s : State) : Option (Word64 × State) :=
  match assemble line with
  | none => none
  | some r =>
    let waiting := s.inputs ++ before ++ [.request r]
    match run waiting.length { s with inputs := waiting } with
    | .next t =>
      match t.resp with
      | some answer => if answer.rcode = 0 then some (answer.result, t) else none
      | none => none
    | .fault _ => none
    | .refused _ => none

/-- `sint_32` of a `RESULT` that holds a 32-bit integer. -/
def resultInt (v : Word64) : Int := sint32 (v.setWidth 32)

/-- Steps 3 and 4 of R181: the third channel's value before inversion, from `r`, `g` and the sample `f`. -/
def thirdChannel (r g : Int) (f : Rat) : Int :=
  let low := if r + g < 128 then 128 - r - g else 0
  let high := if r + g < 128 then 128 else 255 - r - g
  low + (rne64 (f * ((high - low : Int) : Rat))).floor

/-- Steps 1 to 5 of R181 but for the hex digits: the three inverted channels, and the state after the draws,
with `arrivals` from other requesters between the commands. -/
def colorChannels (h : Word32) (arrivals : ColorArrivals) (s : State) : Option (List Int × State) := do
  let (_, s1) ← hostIssue arrivals.beforeSeed (.seed (sint32 h)) s
  let (v1, s2) ← hostIssue arrivals.beforeR (.sample1 128) s1
  let (v2, s3) ← hostIssue arrivals.beforeG (.sample1 128) s2
  let (v3, s4) ← hostIssue arrivals.beforeF .samplef s3
  let f ← binary64Of v3
  let r := resultInt v1
  let g := resultInt v2
  some ([0xff - r, 0xff - g, 0xff - thirdChannel r g f], s4)

/-- `hex2(c)` (R181): two lowercase hex digits. How a value outside 0 to 255 is rendered is in no source (R183; I9 of
spec/93_implementation_defined.md), so there is no rendering for it. Log entry 7. -/
def hex2 (c : Int) : Option (List Char) :=
  let digit (n : Nat) : Char :=
    ['0', '1', '2', '3', '4', '5', '6', '7', '8', '9', 'a', 'b', 'c', 'd', 'e', 'f'].getD n '0'
  if 0 ≤ c ∧ c ≤ 255 then some [digit (c.toNat / 16), digit (c.toNat % 16)] else none

/-- `derive_color(h)` (R181): the characters of the color, if each channel is two hex digits, and the state after the
three draws. -/
def deriveColor (h : Word32) (arrivals : ColorArrivals) (s : State) : Option (Option (List Char) × State) := do
  let (channels, t) ← colorChannels h arrivals s
  some ((channels.mapM hex2).map fun digits => '#' :: digits.flatten, t)

end Sys2Proof.Machine
end

