-- ==== Sys2Proof/Machine/Platform.lean ====
section
/-! DEFINITION. A platform of `N_INST` instances (R7, R30, R212) and the requesters that share one (R55): which
instance steps next and which input reaches it are the platform's choice, so both are arguments here. -/

namespace Sys2Proof.Machine

/-- The instances of a platform, by number. -/
structure Platform where
  instances : List State
  deriving DecidableEq, Repr

/-- `N_INST` is at least 1 (R7). -/
abbrev Platform.wf (p : Platform) : Prop := 1 ≤ p.instances.length

/-- `n` instances right after they start together at reset (R212), each with its own `S_RESET`. -/
def Platform.reset (n : Nat) : Platform :=
  { instances := (List.range n).map fun j => State.resetWith (Config.sResetOf j) }

/-- A requester's command, or a reset, comes to the end of an instance's inputs (R55). -/
def State.submit (input : Input) (s : State) : State := { s with inputs := s.inputs ++ [input] }

/-- An input comes to instance `j`; an instance that does not exist gets nothing. Log entry 12. -/
def Platform.submit (j : Nat) (input : Input) (p : Platform) : Platform :=
  { instances := p.instances.modify j (State.submit input) }

/-- Instance `j` makes one step (R30); there is nothing to do for an instance that does not exist. Log entry 12. -/
def Platform.stepAt (j : Nat) (p : Platform) : Host.Outcome Platform Fault Refusal :=
  match p.instances[j]? with
  | none => .next p
  | some s =>
    match stepWith (Config.sResetOf j) s with
    | .next t => .next { instances := p.instances.set j t }
    | .fault r => .fault r
    | .refused r => .refused r

end Sys2Proof.Machine
end

