-- ==== Sys2Proof/Certificates/Slice0/Obligations.lean ====
section
/-! DEFINITION. The statements for the provers, from the numbered rules of spec/. Results are given by native integer,
rational and 64-bit arithmetic, so that a statement does not repeat the model's own text. -/

open Sys2Proof Sys2Proof.Machine

/-! ### Encoding (spec/30_encoding.md) -/

/-- Sanity: words written out from the bit diagram of R60 and the opcode map of R64 decode to their commands, and a
reserved `OP`, a nonzero unused field and a shift amount of 64 to their errors. -/
def Obligations.WrittenOutWordsDecode : Prop :=
  decode 0b0000000000000000_00000000_00000001 = .command .mul64 ∧
  decode 0b0001001000110100_00000000_00000010 = .command (.add64 0x1234) ∧
  decode 0b0000000000000000_00111111_00000011 = .command (.shr64 63) ∧
  decode 0b0000000000000000_00000000_00010000 = .command .seed ∧
  decode 0b0000000000000000_00000000_00100010 = .command .sample2 ∧
  decode 0b0000000000000000_00000000_00110000 = .command .rdstat ∧
  decode 0b0000000000000000_00000000_00000000 = .error .illegalOpcode ∧
  decode 0b0000000000000001_01000000_00000011 = .error .reservedField ∧
  decode 0b0000000000000000_01000000_00000011 = .error .shamtRange

/-- Decoding the word of a well-formed command gives the command back, with every operand. -/
def Obligations.DecodeOfEncodeIsTheCommand : Prop :=
  ∀ i : Instr, i.wellFormed = true → decode (encode i) = .command i

/-- A word that decodes to a command is the one word of that command, which is well formed (R65, R67). -/
def Obligations.DecodedWordIsTheCommandsOnlyWord : Prop :=
  ∀ (w : Word32) (i : Instr), decode w = .command i → i.wellFormed = true ∧ encode i = w

/-- R68: every word decodes to exactly one command or one error, by its fields `OP = CMD[7:0]`, `SHAMT = CMD[15:8]`
and `IMM16 = CMD[31:16]`, in the order of the checks. -/
def Obligations.EveryWordDecodesByTheOrderedChecks : Prop :=
  ∀ w : Word32,
    let op := w.toNat % 256
    let shamt := w.toNat / 256 % 256
    let imm16 := w.toNat / 65536
    let defined := op ∈ [0x01, 0x02, 0x03, 0x10, 0x11, 0x20, 0x21, 0x22, 0x30]
    (¬ defined → decode w = .error .illegalOpcode) ∧
    (defined → op ≠ 0x03 → shamt ≠ 0 → decode w = .error .reservedField) ∧
    (defined → op ≠ 0x02 → imm16 ≠ 0 → decode w = .error .reservedField) ∧
    (op = 0x03 → imm16 = 0 → 64 ≤ shamt → decode w = .error .shamtRange) ∧
    (op = 0x01 → shamt = 0 → imm16 = 0 → decode w = .command .mul64) ∧
    (op = 0x02 → shamt = 0 → decode w = .command (.add64 (BitVec.ofNat 16 imm16))) ∧
    (op = 0x03 → imm16 = 0 → shamt < 64 → decode w = .command (.shr64 (BitVec.ofNat 8 shamt))) ∧
    (op = 0x10 → shamt = 0 → imm16 = 0 → decode w = .command .seed) ∧
    (op = 0x11 → shamt = 0 → imm16 = 0 → decode w = .command .next32) ∧
    (op = 0x20 → shamt = 0 → imm16 = 0 → decode w = .command .samplef) ∧
    (op = 0x21 → shamt = 0 → imm16 = 0 → decode w = .command .sample1) ∧
    (op = 0x22 → shamt = 0 → imm16 = 0 → decode w = .command .sample2) ∧
    (op = 0x30 → shamt = 0 → imm16 = 0 → decode w = .command .rdstat)

/-- R71: the word is `OP` plus `SHAMT` at bit 8 plus `IMM16` at bit 16, with the rule's nine examples. -/
def Obligations.WordIsAssembledFromItsFields : Prop :=
  (∀ i : Instr, (encode i).toNat = i.opcode.toNat + 2 ^ 8 * i.shamtOf.toNat + 2 ^ 16 * i.imm16Of.toNat) ∧
  encode .mul64 = 0x00000001 ∧ encode (.add64 1) = 0x00010002 ∧ encode (.shr64 33) = 0x00002103 ∧
  encode .seed = 0x00000010 ∧ encode .next32 = 0x00000011 ∧ encode .samplef = 0x00000020 ∧
  encode .sample1 = 0x00000021 ∧ encode .sample2 = 0x00000022 ∧ encode .rdstat = 0x00000030

/-! ### The limb algorithms (spec/40_arith.md) -/

/-- R100: the schoolbook limb product is the exact product mod 2^64. -/
def Obligations.LimbProductIsExactModulo2Pow64 : Prop :=
  ∀ a b : Word64, (mul64 a b).toNat = a.toNat * b.toNat % 2 ^ 64

/-- R101: an intermediate `t` of the limb product lies in `[0, 2^32 − 1]`, and the datapath with a 32-bit accumulator,
a 16-bit carry and only the partial products with `i + j ≤ 3` gives the same result. -/
def Obligations.NarrowDatapathComputesTheLimbProduct : Prop :=
  (∀ ai bj pij k : Nat, ai ≤ 65535 → bj ≤ 65535 → pij ≤ 65535 → k ≤ 65535 → ai * bj + pij + k ≤ 2 ^ 32 - 1) ∧
  ∀ a b : Word64, mul64Datapath a b = mul64 a b

/-- From R103: the limb sum is exact mod 2^64, for the 16-bit addends of the spec and for every larger one. That a larger
addend has a value at all is the model's choice, of which the spec makes no claim (log entry 15). -/
def Obligations.LimbSumIsExactModulo2Pow64 : Prop :=
  ∀ (a : Word64) (n : Nat), (add64 a n).toNat = (a.toNat + n) % 2 ^ 64

/-- R105: the two-phase limb shift is `floor(a / 2^n)` for every shift amount 0 to 63. -/
def Obligations.LimbShiftIsTheFlooredQuotient : Prop :=
  ∀ (a : Word64) (n : Nat), n ≤ 63 → (shr64 a n).toNat = a.toNat / 2 ^ n

/-- R107: `mul64` also gives the low half of the signed product. -/
def Obligations.ProductIsTheSameReadAsSigned : Prop :=
  ∀ a b : Word64, mul64 a b = BitVec.ofInt 64 (a.toInt * b.toInt)

/-! ### The commands: what each answers and leaves, and the words that it rejects -/

/-- R102, MUL64: it completes in every state with `RESULT = A·B mod 2^64` and changes nothing but the response. Its
only word is 0x00000001; any other word with its `OP` has a nonzero unused field. -/
def Obligations.Mul64AnswersTheProduct : Prop :=
  (∀ s : State, exec .mul64 s = .next { s with resp := some { rcode := 0, result := s.req.a * s.req.b } }) ∧
  decode 0x00000001 = .command .mul64 ∧
  (∀ w : Word32, w.toNat % 256 = 0x01 → w ≠ 0x00000001 → decode w = .error .reservedField)

/-- R104, ADD64: it completes for every state and every addend with `RESULT = A + n mod 2^64` and changes nothing but
the response. -/
def Obligations.Add64AnswersTheSum : Prop :=
  (∀ (s : State) (n : Imm16),
    exec (.add64 n) s = .next { s with resp := some { rcode := 0, result := s.req.a + n.setWidth 64 } }) ∧
  (∀ n : Nat, n ≤ 65535 → decode (BitVec.ofNat 32 (n * 2 ^ 16 + 0x02)) = .command (.add64 (BitVec.ofNat 16 n))) ∧
  (∀ w : Word32, w.toNat % 256 = 0x02 → w.toNat / 256 % 256 ≠ 0 → decode w = .error .reservedField)

/-- From R106, SHR64: for a shift amount 0 to 63 it completes with the logical right shift and changes nothing but the
response; 64 to 255 are rejected with `SHAMT_RANGE`, and a nonzero `IMM16` with `RESERVED_FIELD` whatever the shift
amount is. That performing the command also rejects 64 to 255, beside decode, is the model's reading of the rule's
pseudocode (log entry 8). -/
def Obligations.Shr64AnswersTheShift : Prop :=
  (∀ (s : State) (n : Byte), n.toNat ≤ 63 →
    exec (.shr64 n) s = .next { s with resp := some { rcode := 0, result := s.req.a >>> n.toNat } }) ∧
  (∀ (s : State) (n : Byte), 64 ≤ n.toNat →
    exec (.shr64 n) s = .next { s with
      FAULT := true, CAUSE := if s.FAULT then s.CAUSE else 3, resp := some { rcode := 3, result := 0 } }) ∧
  (∀ n : Nat, n ≤ 63 → decode (BitVec.ofNat 32 (n * 2 ^ 8 + 0x03)) = .command (.shr64 (BitVec.ofNat 8 n))) ∧
  (∀ w : Word32, w.toNat % 256 = 0x03 → w.toNat / 65536 ≠ 0 → decode w = .error .reservedField) ∧
  (∀ w : Word32, w.toNat % 256 = 0x03 → w.toNat / 65536 = 0 → 64 ≤ w.toNat / 256 % 256 →
    decode w = .error .shamtRange)

/-- R121, SEED: it completes in every state with `RESULT = 0` and `S = (n − 1) mod 2^32`, whatever `S` was, and changes
nothing else; distinct operands leave distinct states of the generator. -/
def Obligations.SeedLoadsTheOperandMinusOne : Prop :=
  (∀ s : State,
    exec .seed s = .next { s with
      S := BitVec.ofInt 64 ((s.req.x.toInt - 1) % 2 ^ 32), resp := some { rcode := 0, result := 0 } }) ∧
  (∀ s s' t t' : State, exec .seed s = .next t → exec .seed s' = .next t' → (t.S = t'.S ↔ s.req.x = s'.req.x)) ∧
  decode 0x00000010 = .command .seed ∧
  (∀ w : Word32, w.toNat % 256 = 0x10 → w ≠ 0x00000010 → decode w = .error .reservedField)

/-- R123, NEXT32: it completes in every state, steps `S` once and answers `S[63:33]` of the new state, extended to
64 bits; nothing else changes. A rejected NEXT32 does not step `S`. -/
def Obligations.Next32StepsAndAnswersTheHighBits : Prop :=
  (∀ s : State,
    let next := s.S * 0x5851F42D4C957F2D + 1
    exec .next32 s = .next { s with S := next, resp := some { rcode := 0, result := next >>> 33 } }) ∧
  decode 0x00000011 = .command .next32 ∧
  (∀ (s : State) (r : Request) (rest : List Input), s.inputs = .request r :: rest →
    r.cmd.toNat % 256 = 0x11 → r.cmd ≠ 0x00000011 →
    decode r.cmd = .error .reservedField ∧ ∃ t, step s = .next t ∧ t.S = s.S)

/-- R144, SAMPLEF: it completes in every state, steps `S` once and answers the binary64 encoding of
`RNE64(q / M31)`; nothing else changes, 0 is answered exactly for `q = 0`, and the largest answer is below 1.0. A
rejected SAMPLEF does not step `S`. -/
def Obligations.SampleFAnswersTheEncodedSample : Prop :=
  (∀ s : State,
    let next := s.S * 0x5851F42D4C957F2D + 1
    let q := (next >>> 33).toNat % 2147483647
    exec .samplef s = .next { s with
      S := next, resp := some { rcode := 0, result := bits64 (rne64 ((q : ℚ) / 2147483647)) } } ∧
    (bits64 (rne64 ((q : ℚ) / 2147483647)) = 0 ↔ q = 0) ∧
    (bits64 (rne64 ((q : ℚ) / 2147483647))).toNat ≤ 0x3fefffffffc00000) ∧
  decode 0x00000020 = .command .samplef ∧
  (∀ (s : State) (r : Request) (rest : List Input), s.inputs = .request r :: rest →
    r.cmd.toNat % 256 = 0x20 → r.cmd ≠ 0x00000020 →
    decode r.cmd = .error .reservedField ∧ ∃ t, step s = .next t ∧ t.S = s.S)

/-- R146, SAMPLE1: it completes in every state, steps `S` once and answers the 64-bit form of
`floor(RNE64(r · u)) + 1` for the bound `u` on `X`; nothing else changes. -/
def Obligations.Sample1AnswersTheScaledDraw : Prop :=
  (∀ s : State,
    let next := s.S * 0x5851F42D4C957F2D + 1
    let q := (next >>> 33).toNat % 2147483647
    let r := rne64 ((q : ℚ) / 2147483647)
    exec .sample1 s = .next { s with
      S := next, resp := some { rcode := 0, result := BitVec.ofInt 64 (⌊rne64 (r * (s.req.x.toInt : ℚ))⌋ + 1) } }) ∧
  decode 0x00000021 = .command .sample1 ∧
  (∀ w : Word32, w.toNat % 256 = 0x21 → w ≠ 0x00000021 → decode w = .error .reservedField)

/-- R147, SAMPLE2: it completes in every state, steps `S` once and answers the 64-bit form of
`floor(RNE64(r · (u − l + 1))) + l` for the bounds `l` on `X` and `u` on `Y`; nothing else changes. -/
def Obligations.Sample2AnswersTheScaledDraw : Prop :=
  (∀ s : State,
    let next := s.S * 0x5851F42D4C957F2D + 1
    let q := (next >>> 33).toNat % 2147483647
    let r := rne64 ((q : ℚ) / 2147483647)
    let l := s.req.x.toInt
    let u := s.req.y.toInt
    exec .sample2 s = .next { s with
      S := next,
      resp := some { rcode := 0, result := BitVec.ofInt 64 (⌊rne64 (r * ((u - l + 1 : ℤ) : ℚ))⌋ + l) } }) ∧
  decode 0x00000022 = .command .sample2 ∧
  (∀ w : Word32, w.toNat % 256 = 0x22 → w ≠ 0x00000022 → decode w = .error .reservedField)

/-- R170, RDSTAT: it completes in every state and answers `CAUSE` at bits 7:4 and `FAULT` at bit 0, all other bits 0;
it clears nothing and changes nothing but the response. A rejected RDSTAT sets `FAULT`. -/
def Obligations.RdstatAnswersTheStatus : Prop :=
  (∀ s : State,
    exec .rdstat s = .next { s with
      resp := some { rcode := 0, result := BitVec.ofNat 64 (16 * s.CAUSE.toNat + s.FAULT.toNat) } }) ∧
  decode 0x00000030 = .command .rdstat ∧
  (∀ (s : State) (r : Request) (rest : List Input), s.inputs = .request r :: rest →
    r.cmd.toNat % 256 = 0x30 → r.cmd ≠ 0x00000030 →
    decode r.cmd = .error .reservedField ∧ ∃ t, step s = .next t ∧ t.FAULT = true)

/-! ### The generator (spec/41_lcg.md) -/

/-- R120, R122: one draw steps `S` to `S · 6364136223846793005 + 1 mod 2^64`, writes nothing else, and outputs the new
state shifted right by 33. -/
def Obligations.DrawStepsTheRecurrenceOnce : Prop :=
  ∀ s : State,
    (lcgStep s.S).toNat = (s.S.toNat * 6364136223846793005 + 1) % 2 ^ 64 ∧
    lcgDraw s = (BitVec.ofNat 32 ((lcgStep s.S).toNat / 2 ^ 33), { s with S := lcgStep s.S })

/-- R124: the output of a draw is `S[63:33]` of the new state, never negative, and it is the largest value 0x7FFFFFFF
exactly when the new state is at least 0xFFFFFFFE00000000. -/
def Obligations.DrawOutputIsNonnegative31Bits : Prop :=
  ∀ s : State,
    let new := (lcgDraw s).2.S
    let out := (lcgDraw s).1
    out = (new.extractLsb' 33 31).setWidth 32 ∧ out.toNat ≤ 2 ^ 31 - 1 ∧ out.getLsbD 31 = false ∧ 0 ≤ out.toInt ∧
    (0xFFFFFFFE00000000 ≤ new.toNat ↔ out = 0x7FFFFFFF)

/-- R125: after a SEED, the responses of the draws that follow and the final `S` depend on the SEED operand alone. -/
def Obligations.DrawsAfterSeedDependOnTheSeedAlone : Prop :=
  ∀ (s s' : State) (seed seed' : Request) (draws : List Request),
    seed.seeds = true → seed'.seeds = true → seed.x = seed'.x → (∀ d ∈ draws, d.draws = true) →
    ∃ t t', run (draws.length + 1) (s.withRequests (seed :: draws)) = .next t ∧
      run (draws.length + 1) (s'.withRequests (seed' :: draws)) = .next t' ∧ t.S = t'.S ∧
      (exchanges (draws.length + 1) (s.withRequests (seed :: draws))).map Prod.snd =
        (exchanges (draws.length + 1) (s'.withRequests (seed' :: draws))).map Prod.snd

/-- R126: each of NEXT32, SAMPLEF, SAMPLE1 and SAMPLE2 steps `S` exactly once and no other command steps it, so after a
SEED and any requests without another SEED, rejected ones included, `S` has been stepped once for each draw. -/
def Obligations.StateAfterSeedCountsTheDraws : Prop :=
  (∀ (i : Instr) (s t : State), exec i s = .next t → i ≠ .seed →
    t.S = if i ∈ [.next32, .samplef, .sample1, .sample2] then lcgStep s.S else s.S) ∧
  ∀ (s : State) (seed : Request) (rs : List Request),
    seed.seeds = true → (∀ r ∈ rs, r.seeds = false) →
    ∃ t, run (rs.length + 1) (s.withRequests (seed :: rs)) = .next t ∧
      t.S = lcgStep^[(rs.filter Request.draws).length] (BitVec.ofInt 64 ((seed.x.toInt - 1) % 2 ^ 32))

/-! ### The sample mux (spec/42_sample.md) -/

/-- From R140: `RNE64` rounds to the nearest binary64 with ties to the even significand, and every value that the sample
mux rounds is 0 or lies in `[2^-31, 2^32]` in magnitude. That the formula also holds for an `x` outside the rule's domain
(`e < -1022` or `|x| ≥ 2^1024`) is the model's choice (log entry 17). -/
def Obligations.RoundingIsToNearestTiesToEven : Prop :=
  rne64 0 = 0 ∧
  (∀ x : ℚ, x ≠ 0 → ∃ e m : ℤ,
    2 ^ e ≤ |x| ∧ |x| < 2 ^ (e + 1) ∧ 2 ^ 52 ≤ m ∧ m ≤ 2 ^ 53 ∧
    |(m : ℚ) - |x| / 2 ^ (e - 52)| ≤ 1 / 2 ∧ (|(m : ℚ) - |x| / 2 ^ (e - 52)| = 1 / 2 → Even m) ∧
    rne64 x = (if x < 0 then -1 else 1) * (m : ℚ) * 2 ^ (e - 52)) ∧
  (∀ q k : ℤ, 1 ≤ q → q < 2147483647 → 2 - 2 ^ 32 ≤ k → k ≤ 2 ^ 32 → k ≠ 0 →
    1 / 2 ^ 31 ≤ (q : ℚ) / 2147483647 ∧ (q : ℚ) / 2147483647 ≤ 2 ^ 32 ∧
    1 / 2 ^ 31 ≤ |rne64 ((q : ℚ) / 2147483647) * (k : ℚ)| ∧ |rne64 ((q : ℚ) / 2147483647) * (k : ℚ)| ≤ 2 ^ 32)

/-- From R141: the encoding of a normal binary64 value `± m · 2^(e−52)`: sign at bit 63, `e + 1023` at bits 62:52,
`m − 2^52` at bits 51:0; and `bits64(+0) = 0`. The rule's formula is for positive values: the clause on negative ones is
the model's (log entry 9). -/
def Obligations.Bits64IsTheBinary64Layout : Prop :=
  bits64 0 = 0 ∧
  ∀ e m : ℤ, -1022 ≤ e → e ≤ 1023 → 2 ^ 52 ≤ m → m < 2 ^ 53 →
    bits64 ((m : ℚ) * 2 ^ (e - 52)) = BitVec.ofInt 64 ((e + 1023) * 2 ^ 52 + (m - 2 ^ 52)) ∧
    bits64 (-((m : ℚ) * 2 ^ (e - 52))) = BitVec.ofInt 64 (2 ^ 63 + (e + 1023) * 2 ^ 52 + (m - 2 ^ 52))

/-- From R142 and R145: `sample_r` and `sample_range` make one draw and give the formulas of the rules, with the quotient and
the product each rounded once and the width `k` exact; `q` is 0 exactly for the draws 0 and 0x7FFFFFFF.
That the formula also holds for bounds that are no 32-bit signed integers is the model's choice (log entry 17). -/
def Obligations.SampleFunctionsFollowTheirFormulas : Prop :=
  ∀ s : State,
    let next := s.S * 0x5851F42D4C957F2D + 1
    let v := next.toNat / 2 ^ 33
    let r := rne64 (((v % 2147483647 : ℕ) : ℚ) / 2147483647)
    (v % 2147483647 = 0 ↔ v = 0 ∨ v = 0x7FFFFFFF) ∧
    sampleR s = (r, { s with S := next }) ∧
    ∀ l u : ℤ, sampleRange l u s = (⌊rne64 (r * ((u - l + 1 : ℤ) : ℚ))⌋ + l, { s with S := next })

/-- R143: the properties of `r`: it is 0 exactly for `q = 0`; for `q ≥ 1` the quotient is never a binary64 value and
`r` is the one binary64 value nearest to it, positive and normal; `r` is at most `1 − 2^−31`, reached at the largest
`q`, with the encoding that the rule gives. -/
def Obligations.SampleIsTheUniqueNearestBelowOne : Prop :=
  Nat.Prime 2147483647 ∧
  (∀ q : ℤ, 0 ≤ q → q ≤ 2147483646 →
    let r := rne64 ((q : ℚ) / 2147483647)
    (r = 0 ↔ q = 0) ∧ 0 ≤ r ∧ r < 1 ∧ r ≤ 1 - 1 / 2 ^ 31 ∧
    (1 ≤ q →
      ¬ IsBinary64 ((q : ℚ) / 2147483647) ∧ IsBinary64 r ∧ 1 / 2 ^ 1022 ≤ r ∧
      ∀ y : ℚ, IsBinary64 y → y ≠ r → |r - (q : ℚ) / 2147483647| < |y - (q : ℚ) / 2147483647|)) ∧
  rne64 ((2147483646 : ℚ) / 2147483647) = 1 - 1 / 2 ^ 31 ∧
  bits64 (rne64 ((2147483646 : ℚ) / 2147483647)) = 0x3fefffffffc00000

/-- R148: a ranged draw lies in `[l, u]` if `l ≤ u`, in `[u + 1, l]` if `l > u`, and always fits a signed 32-bit
integer. -/
def Obligations.RangedDrawStaysInItsRange : Prop :=
  ∀ (s : State) (l u : ℤ), -2 ^ 31 ≤ l → l ≤ 2 ^ 31 - 1 → -2 ^ 31 ≤ u → u ≤ 2 ^ 31 - 1 →
    let res := (sampleRange l u s).1
    (l ≤ u → l ≤ res ∧ res ≤ u) ∧ (u < l → u + 1 ≤ res ∧ res ≤ l) ∧ -2 ^ 31 ≤ res ∧ res ≤ 2 ^ 31 - 1

/-- R149: for a width `|k| ≤ 2^21 − 1` the ranged draw is the exact rational floor, so the rounding plays no part. -/
def Obligations.NarrowRangesNeedNoRounding : Prop :=
  ∀ (s : State) (l u : ℤ), -2 ^ 31 ≤ l → l ≤ 2 ^ 31 - 1 → -2 ^ 31 ≤ u → u ≤ 2 ^ 31 - 1 →
    |u - l + 1| ≤ 2 ^ 21 - 1 →
    let q : ℤ := (s.S * 0x5851F42D4C957F2D + 1).toNat / 2 ^ 33 % 2147483647
    (sampleRange l u s).1 = ⌊(q : ℚ) * ((u - l + 1 : ℤ) : ℚ) / 2147483647⌋ + l

/-- From R150 and the vectors V-S13 and V-S20: for a wide range the rounded result can be one more than the exact
rational floor. The rule's counts of such cases are not stated here. -/
def Obligations.WideRangesCanRoundUpPastTheFloor : Prop :=
  ∃ s : State, ∃ l u : ℤ, -2 ^ 31 ≤ l ∧ l ≤ u ∧ u ≤ 2 ^ 31 - 1 ∧ u - l + 1 = 2 ^ 24 ∧
    let q : ℤ := (s.S * 0x5851F42D4C957F2D + 1).toNat / 2 ^ 33 % 2147483647
    (sampleRange l u s).1 = ⌊(q : ℚ) * ((u - l + 1 : ℤ) : ℚ) / 2147483647⌋ + l + 1

/-! ### Errors and the status register (spec/10_state.md, spec/60_exceptions.md) -/

/-- R66, R67, R201, R202, R203: a request with a reserved `OP`, else with a nonzero unused field, else a SHR64 by 64 or
more, is rejected with that first cause: `RCODE` is the code, `RESULT` is 0, `FAULT` is set, `CAUSE` keeps the first
cause since reset, and nothing else changes but what taking the request changes. -/
def Obligations.BadWordsAreRejectedByPrecedence : Prop :=
  ∀ (s : State) (r : Request) (rest : List Input), s.inputs = .request r :: rest →
    let op := r.cmd.toNat % 256
    let shamt := r.cmd.toNat / 256 % 256
    let imm16 := r.cmd.toNat / 65536
    let defined := op ∈ [0x01, 0x02, 0x03, 0x10, 0x11, 0x20, 0x21, 0x22, 0x30]
    let rejectedWith (c : Code) : State :=
      { S := s.S, FAULT := true, CAUSE := if s.FAULT then s.CAUSE else c, req := r,
        resp := some { rcode := c, result := 0 }, inputs := rest }
    (¬ defined → step s = .next (rejectedWith 1)) ∧
    (defined → op ≠ 0x03 → shamt ≠ 0 → step s = .next (rejectedWith 2)) ∧
    (defined → op ≠ 0x02 → imm16 ≠ 0 → step s = .next (rejectedWith 2)) ∧
    (op = 0x03 → imm16 = 0 → 64 ≤ shamt → step s = .next (rejectedWith 3))

/-- R204: a request that is not rejected is answered with `RCODE = 0` and leaves `STATUS` as it was. -/
def Obligations.PerformedCommandsLeaveTheStatus : Prop :=
  ∀ (s : State) (r : Request) (rest : List Input) (i : Instr),
    s.inputs = .request r :: rest → decode r.cmd = .command i →
    ∃ t v, step s = .next t ∧ t.resp = some { rcode := 0, result := v } ∧ t.FAULT = s.FAULT ∧ t.CAUSE = s.CAUSE

/-- R42: every request gets one response. Its `RCODE` is 0 if the command is performed and otherwise the code of R200 for
the word's error; `RESULT` is 0 when `RCODE` is not 0, and otherwise in the form that R65 gives for the command: the
Word64 product, sum or shifted value, 0, the sign extension of a 32-bit value, the encoding of a binary64 sample, or the
value of `STATUS`. -/
def Obligations.ResponsesCarryACodeAndAResult : Prop :=
  ∀ (s : State) (r : Request) (rest : List Input), s.inputs = .request r :: rest →
    ∃ t answer, step s = .next t ∧ t.resp = some answer ∧
      (answer.rcode = 0 ↔ ∃ i, decode r.cmd = .command i) ∧
      (answer.rcode ≠ 0 → answer.result = 0) ∧
      (decode r.cmd = .error .illegalOpcode → answer.rcode = 1) ∧
      (decode r.cmd = .error .reservedField → answer.rcode = 2) ∧
      (decode r.cmd = .error .shamtRange → answer.rcode = 3) ∧
      (decode r.cmd = .command .mul64 → answer.result = r.a * r.b) ∧
      (∀ n, decode r.cmd = .command (.add64 n) → answer.result = r.a + n.setWidth 64) ∧
      (∀ n, decode r.cmd = .command (.shr64 n) → answer.result = r.a >>> n.toNat) ∧
      (decode r.cmd = .command .seed → answer.result = 0) ∧
      (decode r.cmd ∈ [.command .next32, .command .sample1, .command .sample2] →
        answer.result = (answer.result.setWidth 32).signExtend 64) ∧
      (decode r.cmd = .command .samplef →
        ∃ f : ℚ, 0 ≤ f ∧ f < 1 ∧ IsBinary64 f ∧ answer.result = bits64 f) ∧
      (decode r.cmd = .command .rdstat →
        answer.result = BitVec.ofNat 64 (16 * s.CAUSE.toNat + s.FAULT.toNat))

/-- R206: `FAULT` stops nothing. A step from two states that differ only in `FAULT` and `CAUSE` leaves the same `S`, the
same inputs still to come and, for every request that is not an RDSTAT, the same response; and once `FAULT` is 1, no command, rejected or not, changes `CAUSE`. -/
def Obligations.FaultDoesNotChangeWhatCommandsDo : Prop :=
  ∀ (s : State) (fault : Bool) (cause : Code),
    ∃ t t', step s = .next t ∧ step { s with FAULT := fault, CAUSE := cause } = .next t' ∧
      t.S = t'.S ∧ t.req = t'.req ∧ t.inputs = t'.inputs ∧
      ((∀ r rest, s.inputs = .request r :: rest → decode r.cmd ≠ .command .rdstat) → t.resp = t'.resp) ∧
      (fault = true → (∀ o rest, s.inputs ≠ .reset o :: rest) → t'.FAULT = true ∧ t'.CAUSE = cause)

/-- R205, R206: no run ever stops: from every state, every number of steps answers a next state. -/
def Obligations.EveryRunIsSafe : Prop :=
  ∀ (k : Nat) (s : State), SafeRun k s

/-- The legal values of `STATUS` (R22, R24) hold right after reset. -/
def Obligations.ResetStatusIsLegal : Prop :=
  State.reset.StatusLegal

/-- An invariant that every step keeps, from every state: `CAUSE` is 0 while `FAULT` is 0 and a code 1 to 3 while
`FAULT` is 1 (R22, R24, and I5 of spec/93_implementation_defined.md). -/
def Obligations.StepKeepsTheStatusLegal : Prop :=
  ∀ s t : State, s.StatusLegal → step s = .next t → t.StatusLegal

/-- R23, R24: from a state with `STATUS` as reset leaves it, after any requests `FAULT` is 1 exactly when at least one
was rejected, and `CAUSE` is the code of the first one rejected, or 0. -/
def Obligations.StatusRecordsTheFirstRejection : Prop :=
  ∀ (s : State) (rs : List Request), s.FAULT = false → s.CAUSE = 0 →
    ∃ t, run rs.length (s.withRequests rs) = .next t ∧
      (t.FAULT = true ↔ ∃ r ∈ rs, ∃ c, decode r.cmd = .error c) ∧
      t.CAUSE = match (rs.filterMap Request.rejectedFor).head? with
        | none => 0
        | some .illegalOpcode => 1
        | some .reservedField => 2
        | some .shamtRange => 3

/-! ### Reset (spec/10_state.md, spec/70_reset_and_hazards.md) -/

/-- R29, R230: after reset `S` is `S_RESET` and `STATUS` is 0; a reset between commands gives that state again, a
command that it cuts off gets no response, and only a reset clears `FAULT` or changes `CAUSE` once `FAULT` is set. That
`S_RESET` is a constant without a value is the model's form of the open parameter (log entry 1); that a reset is an input
of its own, which leaves no response held and keeps the inputs still to come, is the model's choice (log entry 10). -/
def Obligations.OnlyResetClearsTheStatus : Prop :=
  (State.reset.S = Config.sReset ∧ State.reset.FAULT = false ∧ State.reset.CAUSE = 0 ∧ State.reset.status = 0) ∧
  (∀ (s : State) (o : Option Request) (rest : List Input), s.inputs = .reset o :: rest →
    ∃ t, step s = .next t ∧ t.S = Config.sReset ∧ t.FAULT = false ∧ t.CAUSE = 0 ∧ t.status = 0 ∧ t.resp = none ∧
      t.inputs = rest) ∧
  (∀ s t : State, step s = .next t → s.FAULT = true → (t.FAULT = false ∨ t.CAUSE ≠ s.CAUSE) →
    ∃ o rest, s.inputs = .reset o :: rest)

/-! ### The port and the order of commands (spec/20_memory.md) -/

/-- When the next input is a request whose word decodes to a command, the step is that command on the state in which
the port has taken the request. -/
def Obligations.StepRunsTheDecodedCommand : Prop :=
  ∀ (s : State) (r : Request) (rest : List Input) (i : Instr),
    s.inputs = .request r :: rest → decode r.cmd = .command i → step s = exec i { s with req := r, inputs := rest }

/-- R43 as this model has it: a step takes exactly the first input and leaves the others in order, answers a request
with one response at once, and with no input does nothing (log entry 4). -/
def Obligations.PortTakesOneInputAtATime : Prop :=
  ∀ s : State, ∃ t, step s = .next t ∧ t.inputs = s.inputs.tail ∧ (s.inputs = [] → t = s) ∧
    ∀ r rest, s.inputs = .request r :: rest → t.req = r ∧ t.resp.isSome = true

/-- R51: commands take effect in the order in which the port takes them: the earlier ones run as if no later one came,
and the later ones run from the state that the earlier ones left. -/
def Obligations.EarlierCommandsTakeEffectFirst : Prop :=
  ∀ (s : State) (earlier later : List Request),
    ∃ t, run earlier.length (s.withRequests earlier) = .next t ∧
      run (earlier ++ later).length (s.withRequests (earlier ++ later)) =
        run later.length (t.withRequests later) ∧
      exchanges (earlier ++ later).length (s.withRequests (earlier ++ later)) =
        exchanges earlier.length (s.withRequests earlier) ++ exchanges later.length (t.withRequests later)

/-- R31: a command is a function of the block's record `S`, `FAULT`, `CAUSE` and its one request: an earlier request and
an earlier response left on the port, and other inputs still to come, change nothing of the next state but that those
inputs are still to come. -/
def Obligations.CommandDependsOnTheRecordAndItsRequest : Prop :=
  ∀ (s : State) (r old : Request) (answer : Option Response) (rest rest' : List Input),
    s.inputs = .request r :: rest →
    ∃ t, step s = .next t ∧ t.inputs = rest ∧
      step { s with req := old, resp := answer, inputs := .request r :: rest' } = .next { t with inputs := rest' }

/-- R46: a command reads only its own buses: two requests with the same word that agree on the buses of R65 have the
same response and leave the same `S` and `STATUS`. -/
def Obligations.UnusedBusesHaveNoEffect : Prop :=
  ∀ (s : State) (r r' : Request) (rest : List Input), s.inputs = .request r :: rest → r.cmd = r'.cmd →
    (decode r.cmd = .command .mul64 → r.a = r'.a ∧ r.b = r'.b) →
    (∀ n, decode r.cmd = .command (.add64 n) → r.a = r'.a) →
    (∀ n, decode r.cmd = .command (.shr64 n) → r.a = r'.a) →
    (decode r.cmd = .command .seed → r.x = r'.x) →
    (decode r.cmd = .command .sample1 → r.x = r'.x) →
    (decode r.cmd = .command .sample2 → r.x = r'.x ∧ r.y = r'.y) →
    ∃ t, step s = .next t ∧ step { s with inputs := .request r' :: rest } = .next { t with req := r' }

/-- R21: SEED writes `S` without reading it; the four draws write it once, with its own next value; MUL64, ADD64, SHR64
and RDSTAT neither read nor write it; a rejected request does not write it. -/
def Obligations.OnlySeedAndDrawsTouchTheGenerator : Prop :=
  (∀ (s : State) (v : Word64), exec .seed { s with S := v } = exec .seed s) ∧
  (∀ (i : Instr) (s : State), i ∈ [.next32, .samplef, .sample1, .sample2] →
    ∃ t, exec i s = .next t ∧ t.S = s.S * 0x5851F42D4C957F2D + 1) ∧
  (∀ (i : Instr) (s : State) (v : Word64), i.wellFormed = true → i ≠ .seed →
    i ∉ [.next32, .samplef, .sample1, .sample2] →
    ∃ t, exec i s = .next t ∧ t.S = s.S ∧ exec i { s with S := v } = .next { t with S := v }) ∧
  (∀ (s : State) (r : Request) (rest : List Input) (c : ErrorCode),
    s.inputs = .request r :: rest → decode r.cmd = .error c → ∃ t, step s = .next t ∧ t.S = s.S)

/-- From R50: SEED, MUL64, ADD64, SHR64 and RDSTAT are idempotent, and a second draw never finds the generator where
the first one left it. -/
def Obligations.OnlyDrawsAreNotIdempotent : Prop :=
  (∀ (i : Instr) (s : State), i.wellFormed = true → i ∉ [.next32, .samplef, .sample1, .sample2] →
    ∃ t, exec i s = .next t ∧ exec i t = .next t) ∧
  (∀ (i j : Instr) (s : State), i ∈ [.next32, .samplef, .sample1, .sample2] →
    j ∈ [.next32, .samplef, .sample1, .sample2] →
    ∃ t u, exec i s = .next t ∧ exec j t = .next u ∧ t.S ≠ s.S ∧ u.S ≠ t.S)

/-- R234: requests that are neither SEED nor a draw, rejected ones included, may come anywhere among the others: leaving
them out changes neither what the draws answer nor the final `S`; but a rejected one sets `FAULT`. -/
def Obligations.OtherCommandsDoNotDisturbTheSequence : Prop :=
  ∀ (s : State) (rs : List Request),
    let own := rs.filter fun r => r.seeds || r.draws
    ∃ t u, run rs.length (s.withRequests rs) = .next t ∧ run own.length (s.withRequests own) = .next u ∧ t.S = u.S ∧
      (exchanges rs.length (s.withRequests rs)).filter (fun e => e.1.seeds || e.1.draws) =
        exchanges own.length (s.withRequests own) ∧
      ((∃ r ∈ rs, ∃ c, decode r.cmd = .error c) → t.FAULT = true)

/-- From R233 and program P6 of spec/95_test_vectors.md: the shared-register hazard. From every state, interleaving two
requesters' SEEDs and draws gives each another's outputs; with exclusive use each gets its own. -/
def Obligations.InterleavedSequencesCrossTalk : Prop :=
  ∀ s : State,
    let seed (n : Word32) : Request := { cmd := 0x10, a := 0, b := 0, x := n, y := 0 }
    let draw : Request := { cmd := 0x11, a := 0, b := 0, x := 0, y := 0 }
    (exchanges 4 (s.withRequests [seed 1, seed 42, draw, draw])).map (fun e => e.2.result) =
      [0, 0, 0x12900da0, 0x07d0b30f] ∧
    (exchanges 4 (s.withRequests [seed 1, draw, seed 42, draw])).map (fun e => e.2.result) =
      [0, 0, 0, 0x12900da0]

/-- From R30: a command to one instance reads and writes only that instance's state: on any two platforms that agree on
instance `j`, its step leaves the same instance `j`, and it leaves every other instance as it was. That a step of a number beyond the
list completes and changes nothing is the model's choice (log entry 12). -/
def Obligations.InstancesShareNothing : Prop :=
  ∀ (p p' : Platform) (j : Nat), p.instances[j]? = p'.instances[j]? →
    ∃ q q', p.stepAt j = .next q ∧ p'.stepAt j = .next q' ∧ q.instances[j]? = q'.instances[j]? ∧
      q.instances.length = p.instances.length ∧ ∀ k, k ≠ j → q.instances[k]? = p.instances[k]?

/-! ### The host's side of the port (spec/20_memory.md, spec/30_encoding.md) -/

/-- R56: a finite host number becomes the 32-bit word of its value truncated toward zero, mod 2^32, and any other number
becomes 0; 3.7 becomes 3. -/
def Obligations.CoercionTruncatesThenWraps : Prop :=
  (∀ x : ℚ, 0 ≤ x → ((coerce (.finite x)).toNat : ℤ) = ⌊x⌋ % 2 ^ 32) ∧
  (∀ x : ℚ, x ≤ 0 → ((coerce (.finite x)).toNat : ℤ) = ⌈x⌉ % 2 ^ 32) ∧
  coerce .notFinite = 0 ∧ coerce (.finite (37 / 10)) = 3

/-- R57: a host's limb array `[l0, l1, l2, l3]` of limbs below 65536 becomes the bus value `Σ l[i] · 65536^i`, whose limbs
are that array; any other array has no bus encoding. -/
def Obligations.LimbArraysBecomeTheirBusValue : Prop :=
  (∀ l0 l1 l2 l3 : Nat, l0 < 65536 → l1 < 65536 → l2 < 65536 → l3 < 65536 →
    ∃ w, busOfLimbs [l0, l1, l2, l3] = some w ∧
      w.toNat = l0 + l1 * 65536 + l2 * 65536 ^ 2 + l3 * 65536 ^ 3 ∧ limbs w = [l0, l1, l2, l3]) ∧
  (∀ l : List Nat, l.length ≠ 4 ∨ (∃ x ∈ l, 65536 ≤ x) → busOfLimbs l = none)

/-- From R70: each line of a command list becomes a request whose word decodes to its command and whose buses carry its
operands; an immediate or a 32-bit operand out of its range is refused; `SAMPLE` becomes the command for its number of
operands; `.word` places its word as it is. That `.word` takes all four bus operands, `X` and `Y` as 32-bit words, is the
model's choice (log entry 18). -/
def Obligations.AssembledLinesBecomeTheirRequests : Prop :=
  (∀ a b : Word64, ∃ r, assemble (.mul64 a b) = some r ∧ decode r.cmd = .command .mul64 ∧ r.a = a ∧ r.b = b) ∧
  (∀ (a : Word64) (n : ℤ), (0 ≤ n ∧ n ≤ 65535 →
      ∃ r m, assemble (.add64 a n) = some r ∧ decode r.cmd = .command (.add64 m) ∧ (m.toNat : ℤ) = n ∧ r.a = a) ∧
    (n < 0 ∨ 65535 < n → assemble (.add64 a n) = none)) ∧
  (∀ (a : Word64) (n : ℤ), (0 ≤ n ∧ n ≤ 63 →
      ∃ r m, assemble (.shr64 a n) = some r ∧ decode r.cmd = .command (.shr64 m) ∧ (m.toNat : ℤ) = n ∧ r.a = a) ∧
    (n < 0 ∨ 63 < n → assemble (.shr64 a n) = none)) ∧
  (∀ x : ℤ, (-2 ^ 31 ≤ x ∧ x ≤ 2 ^ 31 - 1 →
      (∃ r, assemble (.seed x) = some r ∧ decode r.cmd = .command .seed ∧ r.x.toInt = x) ∧
      (∃ r, assemble (.sample1 x) = some r ∧ decode r.cmd = .command .sample1 ∧ r.x.toInt = x)) ∧
    (x < -2 ^ 31 ∨ 2 ^ 31 - 1 < x → assemble (.seed x) = none ∧ assemble (.sample1 x) = none)) ∧
  (∀ l u : ℤ, (-2 ^ 31 ≤ l ∧ l ≤ 2 ^ 31 - 1 ∧ -2 ^ 31 ≤ u ∧ u ≤ 2 ^ 31 - 1 →
      ∃ r, assemble (.sample2 l u) = some r ∧ decode r.cmd = .command .sample2 ∧ r.x.toInt = l ∧ r.y.toInt = u) ∧
    (l < -2 ^ 31 ∨ 2 ^ 31 - 1 < l ∨ u < -2 ^ 31 ∨ 2 ^ 31 - 1 < u → assemble (.sample2 l u) = none)) ∧
  (∃ r, assemble .next32 = some r ∧ decode r.cmd = .command .next32) ∧
  (∃ r, assemble .samplef = some r ∧ decode r.cmd = .command .samplef) ∧
  (∃ r, assemble .rdstat = some r ∧ decode r.cmd = .command .rdstat) ∧
  assemble (.sample []) = assemble .samplef ∧
  (∀ u : ℤ, assemble (.sample [u]) = assemble (.sample1 u)) ∧
  (∀ l u : ℤ, assemble (.sample [l, u]) = assemble (.sample2 l u)) ∧
  (∀ l : List ℤ, 2 < l.length → assemble (.sample l) = none) ∧
  (∀ (w : Word32) (a b : Word64) (x y : Word32),
    assemble (.word w a b x y) = some { cmd := w, a := a, b := b, x := x, y := y })

/-! ### The host's color derivation (spec/45_host_color.md) -/

/-- From R184, R233 and R237: with exclusive use of the instance between its SEED and its SAMPLEF, the color derivation
completes and its channels, its color and the final `S` depend on `h` alone, whatever the instance held and whatever
came before the SEED. The premise is needed: there are a seed and another requester's draw in between for which the
channels differ. How others' inputs reach the host's sequence is the model's form of it (log entry 13). -/
def Obligations.ColorDependsOnTheSeedAloneUnderExclusiveUse : Prop :=
  (∀ (h : Word32) (arrivals arrivals' : ColorArrivals) (s s' : State),
    arrivals.exclusive = true → arrivals'.exclusive = true →
    ∃ channels color t t',
      colorChannels h arrivals s = some (channels, t) ∧ colorChannels h arrivals' s' = some (channels, t') ∧
      deriveColor h arrivals s = some (color, t) ∧ deriveColor h arrivals' s' = some (color, t') ∧ t.S = t'.S) ∧
  (∃ (h : Word32) (draw : Request) (s : State), draw.draws = true ∧
    (colorChannels h { ColorArrivals.empty with beforeR := [.request draw] } s).map Prod.fst ≠
      (colorChannels h ColorArrivals.empty s).map Prod.fst)

/-- From R182 and R183: whatever other requesters do, the color derivation completes with `r` and `g` in `[1, 128]`, and
its third channel lies in `[128, 254]` for `r + g < 128`, in `[255 − max(0, 254 − r − g), 255]` for
`128 ≤ r + g ≤ 255`, and is 255 or 256 for `r + g = 256`. That the host gets its four responses is part of the model's
form of a derivation (log entry 13). -/
def Obligations.ColorChannelsStayInTheirRanges : Prop :=
  ∀ (h : Word32) (arrivals : ColorArrivals) (s : State),
    ∃ (r g c : ℤ) (t : State), colorChannels h arrivals s = some ([255 - r, 255 - g, c], t) ∧
      1 ≤ r ∧ r ≤ 128 ∧ 1 ≤ g ∧ g ≤ 128 ∧
      (r + g < 128 → 128 ≤ c ∧ c ≤ 254) ∧
      (128 ≤ r + g → r + g ≤ 255 → 255 - max 0 (254 - r - g) ≤ c ∧ c ≤ 255) ∧
      (r + g = 256 → c = 255 ∨ c = 256)
end

