-- ==== Sys2Proof/Laws/Binary64.lean ====
section
/-! SUPPORT. The binary64 primitives in terms of the library's rational arithmetic: powers of two, absolute value, the
binade of a rational and the nearest integer, each said once (R140). -/

namespace Sys2Proof.Machine

theorem pow2_eq_zpow (e : ℤ) : pow2 e = (2 : ℚ) ^ e := by
  cases e with
  | ofNat n => simp [pow2, Rat.mkRat_eq_div]
  | negSucc n => simp [pow2, Rat.mkRat_eq_div, zpow_negSucc]

theorem floor_eq_intFloor (x : ℚ) : x.floor = ⌊x⌋ := rfl

theorem absRat_eq_abs (x : ℚ) : absRat x = |x| := by
  have hd : (0 : ℚ) < x.den := by exact_mod_cast x.den_pos
  rw [absRat, Rat.mkRat_eq_div]
  conv_rhs => rw [← Rat.num_div_den x, abs_div, abs_of_pos hd]
  push_cast
  rfl

/-- `nearestEven` is a nearest integer, and an even one if its argument is exactly halfway. -/
theorem nearestEven_spec (m : ℚ) :
    |(nearestEven m : ℚ) - m| ≤ 1 / 2 ∧ (|(nearestEven m : ℚ) - m| = 1 / 2 → Even (nearestEven m)) := by
  have below : (m.floor : ℚ) ≤ m := by exact_mod_cast Int.floor_le m
  have above : m < m.floor + 1 := by exact_mod_cast Int.lt_floor_add_one m
  have half : mkRat 1 2 = (1 / 2 : ℚ) := by norm_num [Rat.mkRat_eq_div]
  unfold nearestEven
  simp only [half]
  split_ifs with low high even
  · rw [abs_sub_comm, abs_of_nonneg (by linarith)]
    exact ⟨by linarith, fun h => by linarith⟩
  · push_cast
    rw [abs_of_nonneg (by linarith)]
    exact ⟨by linarith, fun h => by linarith⟩
  · rw [abs_sub_comm, abs_of_nonneg (by linarith)]
    exact ⟨by linarith, fun _ => Int.even_iff.2 even⟩
  · push_cast
    rw [abs_of_nonneg (by linarith)]
    exact ⟨by linarith, fun _ => by rw [Int.even_iff]; omega⟩

/-- The binade of a nonzero rational is the integer `e` with `2^e <= |x| < 2^(e+1)` (R140). -/
theorem binade_spec (x : ℚ) (hx : x ≠ 0) : (2 : ℚ) ^ binade x ≤ |x| ∧ |x| < 2 ^ (binade x + 1) := by
  have hn : x.num.natAbs ≠ 0 := by simpa using hx
  have hd : x.den ≠ 0 := x.den_nz
  have n1 : ((2 : ℚ) ^ (Nat.log2 x.num.natAbs : ℤ)) ≤ (x.num.natAbs : ℚ) := by
    rw [zpow_natCast]; exact_mod_cast Nat.log2_self_le hn
  have n2 : (x.num.natAbs : ℚ) < 2 ^ ((Nat.log2 x.num.natAbs : ℤ) + 1) := by
    have h : x.num.natAbs < 2 ^ (Nat.log2 x.num.natAbs + 1) := Nat.lt_log2_self
    exact_mod_cast h
  have d1 : ((2 : ℚ) ^ (Nat.log2 x.den : ℤ)) ≤ (x.den : ℚ) := by
    rw [zpow_natCast]; exact_mod_cast Nat.log2_self_le hd
  have d2 : (x.den : ℚ) < 2 ^ ((Nat.log2 x.den : ℤ) + 1) := by
    have h : x.den < 2 ^ (Nat.log2 x.den + 1) := Nat.lt_log2_self
    exact_mod_cast h
  have dpos : (0 : ℚ) < x.den := by exact_mod_cast x.den_pos
  have habs : |x| = (x.num.natAbs : ℚ) / x.den := by rw [← absRat_eq_abs, absRat, Rat.mkRat_eq_div]; rfl
  have two : (2 : ℚ) ≠ 0 := by norm_num
  unfold binade
  simp only [pow2_eq_zpow, absRat_eq_abs]
  generalize (Nat.log2 x.num.natAbs : ℤ) = a at *
  generalize (Nat.log2 x.den : ℤ) = b at *
  have upper : |x| < 2 ^ (a - b + 1) := by
    rw [habs, div_lt_iff₀ dpos]
    calc (x.num.natAbs : ℚ) < 2 ^ (a + 1) := n2
      _ = 2 ^ (a - b + 1) * 2 ^ b := by rw [← zpow_add₀ two]; congr 1; ring
      _ ≤ 2 ^ (a - b + 1) * x.den := mul_le_mul_of_nonneg_left d1 (by positivity)
  have lower : (2 : ℚ) ^ (a - b - 1) ≤ |x| := by
    rw [habs, le_div_iff₀ dpos]
    calc (2 : ℚ) ^ (a - b - 1) * x.den ≤ 2 ^ (a - b - 1) * 2 ^ (b + 1) :=
          mul_le_mul_of_nonneg_left d2.le (by positivity)
      _ = 2 ^ a := by rw [← zpow_add₀ two]; congr 1; ring
      _ ≤ x.num.natAbs := n1
  split_ifs with h
  · exact ⟨h, upper⟩
  · exact ⟨lower, by rw [sub_add_cancel]; exact not_le.1 h⟩

end Sys2Proof.Machine
end

