-- ==== Sys2Proof/Laws/State.lean ====
section
/-! SUPPORT. One lemma per field of the state for each operation that writes the state, true by `rfl`, so that no
proof unfolds a record update. -/

namespace Sys2Proof.Machine

variable (s : State) (r : Request) (rest : List Input) (v : Word64) (c : ErrorCode)

@[simp] theorem State.take_S : (s.take r rest).S = s.S := rfl
@[simp] theorem State.take_FAULT : (s.take r rest).FAULT = s.FAULT := rfl
@[simp] theorem State.take_CAUSE : (s.take r rest).CAUSE = s.CAUSE := rfl
@[simp] theorem State.take_req : (s.take r rest).req = r := rfl
@[simp] theorem State.take_resp : (s.take r rest).resp = s.resp := rfl
@[simp] theorem State.take_inputs : (s.take r rest).inputs = rest := rfl

@[simp] theorem State.setS_S : (s.setS v).S = v := rfl
@[simp] theorem State.setS_FAULT : (s.setS v).FAULT = s.FAULT := rfl
@[simp] theorem State.setS_CAUSE : (s.setS v).CAUSE = s.CAUSE := rfl
@[simp] theorem State.setS_req : (s.setS v).req = s.req := rfl
@[simp] theorem State.setS_resp : (s.setS v).resp = s.resp := rfl
@[simp] theorem State.setS_inputs : (s.setS v).inputs = s.inputs := rfl

@[simp] theorem State.respond_S : (s.respond v).S = s.S := rfl
@[simp] theorem State.respond_FAULT : (s.respond v).FAULT = s.FAULT := rfl
@[simp] theorem State.respond_CAUSE : (s.respond v).CAUSE = s.CAUSE := rfl
@[simp] theorem State.respond_req : (s.respond v).req = s.req := rfl
@[simp] theorem State.respond_resp : (s.respond v).resp = some { rcode := 0, result := v } := rfl
@[simp] theorem State.respond_inputs : (s.respond v).inputs = s.inputs := rfl

@[simp] theorem State.updateStatus_S : (s.updateStatus c).S = s.S := rfl
@[simp] theorem State.updateStatus_FAULT : (s.updateStatus c).FAULT = true := rfl
@[simp] theorem State.updateStatus_CAUSE :
    (s.updateStatus c).CAUSE = if s.FAULT then s.CAUSE else errorCode c := rfl
@[simp] theorem State.updateStatus_req : (s.updateStatus c).req = s.req := rfl
@[simp] theorem State.updateStatus_resp : (s.updateStatus c).resp = s.resp := rfl
@[simp] theorem State.updateStatus_inputs : (s.updateStatus c).inputs = s.inputs := rfl

@[simp] theorem State.reject_S : (s.reject c).S = s.S := rfl
@[simp] theorem State.reject_FAULT : (s.reject c).FAULT = true := rfl
@[simp] theorem State.reject_CAUSE : (s.reject c).CAUSE = if s.FAULT then s.CAUSE else errorCode c := rfl
@[simp] theorem State.reject_req : (s.reject c).req = s.req := rfl
@[simp] theorem State.reject_resp : (s.reject c).resp = some { rcode := errorCode c, result := 0 } := rfl
@[simp] theorem State.reject_inputs : (s.reject c).inputs = s.inputs := rfl

@[simp] theorem resetTo_S : (resetTo v rest).S = v := rfl
@[simp] theorem resetTo_FAULT : (resetTo v rest).FAULT = false := rfl
@[simp] theorem resetTo_CAUSE : (resetTo v rest).CAUSE = 0 := rfl
@[simp] theorem resetTo_req : (resetTo v rest).req = Request.idle := rfl
@[simp] theorem resetTo_resp : (resetTo v rest).resp = none := rfl
@[simp] theorem resetTo_inputs : (resetTo v rest).inputs = rest := rfl

@[simp] theorem State.busA_eq : s.busA = s.req.a := rfl
@[simp] theorem State.busB_eq : s.busB = s.req.b := rfl
@[simp] theorem State.busX_eq : s.busX = s.req.x.toInt := rfl
@[simp] theorem State.busY_eq : s.busY = s.req.y.toInt := rfl

end Sys2Proof.Machine
end

