-- ==== Sys2Proof/Laws/Step.lean ====
section
/-! SUPPORT. What a command and a step can do, said once: every later proof cites these instead of unfolding `exec` or
`step`. -/

namespace Sys2Proof.Machine

/-- The value of `S` that a performed command leaves (R21): SEED loads it, a draw steps it, any other keeps it. -/
def sAfter (i : Instr) (s : State) : Word64 :=
  if i = .seed then zext64 (wrap32 (s.busX - 1)) else if i.draws then lcgStep s.S else s.S

/-- Everything a command can do: a command that is not well formed is rejected with `SHAMT_RANGE`, and any other
leaves `sAfter` in `S` and responds with some result. -/
theorem exec_shape (i : Instr) (s : State) :
    (i.wellFormed = false ∧ exec i s = .next (s.reject .shamtRange)) ∨
    (i.wellFormed = true ∧ ∃ v, exec i s = .next ((s.setS (sAfter i s)).respond v)) := by
  cases i with
  | shr64 n =>
    by_cases h : 64 ≤ n.toNat
    · exact .inl ⟨by simp [Instr.wellFormed]; omega, by simp [exec, execShr64, shiftAmount, h]⟩
    · refine .inr ⟨by simp [Instr.wellFormed]; omega, shr64 s.busA n.toNat, ?_⟩
      have hx : exec (.shr64 n) s = .next (s.respond (shr64 s.busA n.toNat)) := if_neg h
      exact hx
  | mul64 => exact .inr ⟨rfl, mul64 s.busA s.busB, rfl⟩
  | add64 n => exact .inr ⟨rfl, add64 s.busA (addend n), rfl⟩
  | seed => exact .inr ⟨rfl, 0, rfl⟩
  | next32 => exact .inr ⟨rfl, sext64 (lcgDraw s).1, rfl⟩
  | samplef => exact .inr ⟨rfl, bits64 (sampleR s).1, rfl⟩
  | sample1 => exact .inr ⟨rfl, sext64 (wrap32 (sampleRange 1 s.busX s).1), rfl⟩
  | sample2 => exact .inr ⟨rfl, sext64 (wrap32 (sampleRange s.busX s.busY s).1), rfl⟩
  | rdstat => exact .inr ⟨rfl, s.status, rfl⟩

/-- A command never answers a fault or a refusal. -/
theorem exec_answers_next (i : Instr) (s : State) : ∃ t, exec i s = .next t := by
  obtain ⟨-, h⟩ | ⟨-, v, h⟩ := exec_shape i s <;> exact ⟨_, h⟩

/-- A run from a state whose step is known goes on from the next state. -/
theorem run_of_step (k : Nat) {s t : State} (h : step s = .next t) : run (k + 1) s = run k t := by
  have hs : Sys2Proof.core.step s = .next t := h
  have e := Host.Core.run.eq_2 Sys2Proof.core s k
  rw [hs] at e
  exact e

/-- A step that takes a request is that request's performance. -/
theorem step_of_request {s : State} {r : Request} {rest : List Input} (h : s.inputs = .request r :: rest) :
    step s = perform (s.take r rest) := by
  simp only [step, stepWith, h]

/-- Everything a step can do, by its next input: nothing, a reset, a rejection, or the command that the request's word
decodes to. -/
theorem step_cases {s t : State} (h : step s = .next t) :
    (s.inputs = [] ∧ t = s) ∨
    (∃ o rest, s.inputs = .reset o :: rest ∧ t = resetTo Config.sReset rest) ∨
    (∃ r rest c, s.inputs = .request r :: rest ∧ decode r.cmd = .error c ∧ t = (s.take r rest).reject c) ∨
    (∃ r rest i, s.inputs = .request r :: rest ∧ decode r.cmd = .command i ∧ exec i (s.take r rest) = .next t) := by
  unfold step stepWith at h
  match hi : s.inputs with
  | [] => simp only [hi] at h; cases h; exact .inl ⟨rfl, rfl⟩
  | .reset o :: rest => simp only [hi] at h; cases h; exact .inr (.inl ⟨o, rest, rfl, rfl⟩)
  | .request r :: rest =>
    simp only [hi, perform, State.take_req] at h
    match hd : decode r.cmd with
    | .error c => simp only [hd] at h; cases h; exact .inr (.inr (.inl ⟨r, rest, c, rfl, hd, rfl⟩))
    | .command i => simp only [hd] at h; exact .inr (.inr (.inr ⟨r, rest, i, rfl, hd, h⟩))

end Sys2Proof.Machine
end

