-- ==== Sys2Proof/Laws/Color.lean ====
section
/-! SUPPORT. What a waiting input does to the host's sequence, and everything that issuing one line can do, said once:
proofs about the color derivation cite `hostIssue_performs`. -/

namespace Sys2Proof.Machine

/-- One waiting input: the step answers a next state with the others left, and a quiet input leaves `S`. -/
theorem step_takes_input (s : State) (i : Input) (rest : List Input) :
    ∃ t, step { s with inputs := i :: rest } = .next t ∧ t.inputs = rest ∧ (i.quiet = true → t.S = s.S) := by
  cases i with
  | reset o => exact ⟨resetTo Config.sReset rest, rfl, rfl, nofun⟩
  | request r =>
    have hs : step { s with inputs := .request r :: rest } = perform (s.take r rest) := rfl
    rw [hs, perform, State.take_req]
    match hd : decode r.cmd with
    | .error c => exact ⟨_, rfl, rfl, fun _ => rfl⟩
    | .command i =>
      obtain ⟨-, h⟩ | ⟨-, v, h⟩ := exec_shape i (s.take r rest)
      · exact ⟨_, h, rfl, fun _ => rfl⟩
      · refine ⟨_, h, rfl, fun hq => ?_⟩
        simp only [Input.quiet, Request.seeds, Request.draws, hd, Bool.not_eq_true', Bool.or_eq_false_iff,
          decide_eq_false_iff_not, Decoded.command.injEq] at hq
        simp [sAfter, hq.1, hq.2]

/-- Waiting inputs are all taken, in some state that the rest of the run goes on from; quiet ones leave `S`. -/
theorem run_takes_inputs (before rest : List Input) (s : State) :
    ∃ u, u.inputs = rest ∧ (before.all Input.quiet = true → u.S = s.S) ∧
      ∀ k, run (before.length + k) { s with inputs := before ++ rest } = run k u := by
  induction before generalizing s with
  | nil => exact ⟨{ s with inputs := rest }, rfl, fun _ => rfl, fun k => by rw [List.length_nil, Nat.zero_add]; rfl⟩
  | cons i before ih =>
    obtain ⟨t, ht, hin, hq⟩ := step_takes_input s i (before ++ rest)
    obtain ⟨u, hu, hS, hrun⟩ := ih t
    have e : { t with inputs := before ++ rest } = t := by rw [← hin]
    rw [e] at hrun
    refine ⟨u, hu, fun h => ?_, fun k => ?_⟩
    · rw [List.all_cons, Bool.and_eq_true] at h
      rw [hS h.2, hq h.1]
    · rw [← hrun k, ← run_of_step _ ht, List.length_cons, Nat.add_right_comm]; rfl

/-- Everything that issuing a line can do, for a line whose request decodes to a well-formed command: the host gets the
result of that command, performed on a state with nothing left to come, in which `S` is as it was if only quiet inputs
came before. -/
theorem hostIssue_performs {line : Asm} {r : Request} {i : Instr} (ha : assemble line = some r)
    (hd : decode r.cmd = .command i) (hw : i.wellFormed = true) (before : List Input) (s : State) :
    ∃ u v t, u.req = r ∧ u.inputs = [] ∧ ((s.inputs ++ before).all Input.quiet = true → u.S = s.S) ∧
      exec i u = .next t ∧ t.resp = some { rcode := 0, result := v } ∧ t.S = sAfter i u ∧ t.inputs = [] ∧
      hostIssue before line s = some (v, t) := by
  obtain ⟨w, hwin, hS, hrun⟩ := run_takes_inputs (s.inputs ++ before) [.request r] s
  obtain ⟨hf, -⟩ | ⟨-, v, hx⟩ := exec_shape i (w.take r [])
  · rw [hw] at hf; cases hf
  · have hstep : step w = .next (((w.take r []).setS (sAfter i (w.take r []))).respond v) := by
      rw [step_of_request hwin, perform, State.take_req, hd]; exact hx
    have hlast := hrun 1
    rw [run_of_step 0 hstep] at hlast
    refine ⟨w.take r [], v, _, rfl, rfl, hS, hx, rfl, rfl, rfl, ?_⟩
    simp only [hostIssue, ha, List.length_append, List.length_cons, List.length_nil, Nat.zero_add] at hlast ⊢
    rw [hlast]
    rfl

end Sys2Proof.Machine
end

