-- ==== Sys2Proof/Laws/Decode.lean ====
section
/-! SUPPORT. The fields of a command word as numbers (R60), and what the opcode map answers (R64). -/

namespace Sys2Proof

theorem opField_toNat (w : Word32) : (opField w).toNat = w.toNat % 256 := by
  simp [opField]

theorem shamtField_toNat (w : Word32) : (shamtField w).toNat = w.toNat / 256 % 256 := by
  simp [shamtField, Nat.shiftRight_eq_div_pow]

theorem imm16Field_toNat (w : Word32) : (imm16Field w).toNat = w.toNat / 65536 := by
  have h := w.isLt
  simp [imm16Field, Nat.shiftRight_eq_div_pow]
  omega

/-- A command that the opcode map answers has the operation code it was asked for. -/
theorem opcode_of_commandOf {op shamt : Byte} {imm16 : Imm16} {i : Instr} (h : commandOf op shamt imm16 = some i) :
    op = i.opcode := by
  unfold commandOf at h
  apply BitVec.eq_of_toNat_eq
  split at h <;> cases h <;> simpa [Instr.opcode]

end Sys2Proof
end

