-- ==== Sys2Proof/Laws/Limbs.lean ====
section
/-! SUPPORT. The small lemmas of the limb representation (R9) that proofs about the limb algorithms start from. -/

namespace Sys2Proof.Machine

/-- A limb is a 16-bit digit of the value. -/
theorem limb_eq (w : Word64) (i : Nat) : limb w i = w.toNat / 65536 ^ i % 65536 := by
  unfold limb
  rw [BitVec.extractLsb'_toNat, Nat.shiftRight_eq_div_pow, pow_mul]
  norm_num

/-- Every limb lies in `[0, 65535]` (R47). -/
theorem limb_lt (w : Word64) (i : Nat) : limb w i < 65536 := by
  rw [limb_eq]; exact Nat.mod_lt _ (by decide)

@[simp] theorem limbs_length (w : Word64) : (limbs w).length = 4 := rfl

@[simp] theorem limbValue_nil : limbValue [] = 0 := rfl

@[simp] theorem limbValue_cons (l : Nat) (ls : List Nat) : limbValue (l :: ls) = l + 65536 * limbValue ls := rfl

/-- The limbs of a Word64 have its value (R9). -/
theorem limbValue_limbs (w : Word64) : limbValue (limbs w) = w.toNat := by
  have h := w.isLt
  simp only [limbs, limbValue_cons, limbValue_nil, limb_eq]
  omega

/-- Putting a Word64 together from its own limbs gives it back. -/
theorem ofLimbs_limbs (w : Word64) : ofLimbs (limbs w) = w := by
  have h : (limbs w).take 4 = limbs w := rfl
  rw [ofLimbs, h, limbValue_limbs, BitVec.ofNat_toNat, BitVec.setWidth_eq]

end Sys2Proof.Machine
end

