-- ==== Sys2Proof/Laws/PerInstr.lean ====
section
/-! SUPPORT. One lemma per command: the family EncodedFields, that the three fields of a command's word are its
operation code, its shift amount and its addend (R60, R65, R71). -/

namespace Sys2Proof.Laws.EncodedFields

/-- The fields of the word of `i`. -/
def Statement (i : Instr) : Prop :=
  opField (encode i) = i.opcode ∧ shamtField (encode i) = i.shamtOf ∧ imm16Field (encode i) = i.imm16Of

/-- The fields of an assembled word are the values it was assembled from. -/
theorem fields_of_word (op shamt : Byte) (imm16 : Imm16) :
    opField (wordOf op shamt imm16) = op ∧ shamtField (wordOf op shamt imm16) = shamt ∧
      imm16Field (wordOf op shamt imm16) = imm16 := by
  refine ⟨?_, ?_, ?_⟩
  all_goals
    apply BitVec.eq_of_getLsbD_eq
    intro k hk
    simp only [opField, shamtField, imm16Field, wordOf, BitVec.getLsbD_extractLsb', BitVec.getLsbD_or,
      BitVec.getLsbD_setWidth, BitVec.getLsbD_shiftLeft]
  · have h1 : k < 32 := by omega
    simp [h1, hk]
    intro _; omega
  · have h1 : 8 + k < 32 := by omega
    have h4 : 8 + k - 8 = k := by omega
    have h5 : k < 32 := by omega
    have h6 : 8 + k < 16 := by omega
    simp [h1, h4, h5, h6, hk]
  · have h1 : 16 + k < 32 := by omega
    have h2 : op.getLsbD (16 + k) = false := BitVec.getLsbD_of_ge _ _ (by omega)
    have h3 : shamt.getLsbD (16 + k - 8) = false := BitVec.getLsbD_of_ge _ _ (by omega)
    have h4 : 16 + k - 16 = k := by omega
    simp [h1, h2, h3, h4, hk]
    intro _; omega

theorem mul64 : Statement .mul64 := fields_of_word _ _ _
theorem add64 (imm16 : Imm16) : Statement (.add64 imm16) := fields_of_word _ _ _
theorem shr64 (shamt : Byte) : Statement (.shr64 shamt) := fields_of_word _ _ _
theorem seed : Statement .seed := fields_of_word _ _ _
theorem next32 : Statement .next32 := fields_of_word _ _ _
theorem samplef : Statement .samplef := fields_of_word _ _ _
theorem sample1 : Statement .sample1 := fields_of_word _ _ _
theorem sample2 : Statement .sample2 := fields_of_word _ _ _
theorem rdstat : Statement .rdstat := fields_of_word _ _ _

end Sys2Proof.Laws.EncodedFields
end

