-- ==== Sys2Proof/Tests/Slice0.lean ====
section
/-! SUPPORT. Tests with results taken from spec/95_test_vectors.md and from the spec's rules, and one witness for the
hypotheses of each statement that has some. -/

namespace Sys2Proof.Tests

open Sys2Proof.Machine

/-- An instance with the given `S`, `STATUS` as after reset, and one request to come. -/
def port (S : Word64) (cmd : Word32) (a b : Word64) (x y : Word32) : State :=
  { State.resetWith S with inputs := [.request { cmd := cmd, a := a, b := b, x := x, y := y }] }

/-- `RCODE`, `RESULT`, `S` and `STATUS` after a step. -/
def view (o : Host.Outcome State Fault Refusal) : Option (Code × Word64 × Word64 × Word64) :=
  match o with
  | .next t => t.resp.map fun answer => (answer.rcode, answer.result, t.S, t.status)
  | .fault _ => none
  | .refused _ => none

/-! ### WellFormed: an ill-formed term for its one check -/

theorem test_shift_by_64_is_ill_formed : (Instr.shr64 64).wellFormed = false := by decide
theorem test_shift_by_255_is_ill_formed : (Instr.shr64 255).wellFormed = false := by decide
theorem test_shift_by_63_is_well_formed : (Instr.shr64 63).wellFormed = true := by decide

/-! ### Decoding: words written out bit by bit from R60 and R64, `IMM16`, `SHAMT`, `OP` from the left -/

theorem test_decode_mul64 : decode 0b0000000000000000_00000000_00000001 = .command .mul64 := by decide
theorem test_decode_add64 : decode 0b1111111111111110_00000000_00000010 = .command (.add64 0xfffe) := by decide
theorem test_decode_shr64 : decode 0b0000000000000000_00100001_00000011 = .command (.shr64 33) := by decide
theorem test_decode_seed : decode 0b0000000000000000_00000000_00010000 = .command .seed := by decide
theorem test_decode_next32 : decode 0b0000000000000000_00000000_00010001 = .command .next32 := by decide
theorem test_decode_samplef : decode 0b0000000000000000_00000000_00100000 = .command .samplef := by decide
theorem test_decode_sample1 : decode 0b0000000000000000_00000000_00100001 = .command .sample1 := by decide
theorem test_decode_sample2 : decode 0b0000000000000000_00000000_00100010 = .command .sample2 := by decide
theorem test_decode_rdstat : decode 0b0000000000000000_00000000_00110000 = .command .rdstat := by decide

/-- V-E1, V-E2, V-E4 to V-E8, V-E22: reserved values of `OP`, whatever the other fields hold. -/
theorem test_decode_reserved_op :
    [0x00000000, 0x00000004, 0x00000012, 0x00000023, 0x00000031, 0x000000ff, 0xffffffff, 0x12345678].map decode =
      List.replicate 8 (.error .illegalOpcode) := by decide

/-- V-E9 to V-E11, V-E14, V-E17, V-E18, V-E20, V-E21: nonzero unused fields, which win over the shift amount. -/
theorem test_decode_reserved_field :
    [0x00000101, 0x00010001, 0x01000010, 0x00014003, 0x00010030, 0x00000130, 0x00000102, 0x00000110].map decode =
      List.replicate 8 (.error .reservedField) := by decide

/-- V-E12, V-E13. -/
theorem test_decode_shift_range :
    [0x00004003, 0x0000ff03].map decode = List.replicate 2 (.error .shamtRange) := by decide

/-- The examples of R71. -/
theorem test_encode :
    [Instr.mul64, .add64 1, .shr64 33, .seed, .next32, .samplef, .sample1, .sample2, .rdstat].map encode =
      [0x00000001, 0x00010002, 0x00002103, 0x00000010, 0x00000011, 0x00000020, 0x00000021, 0x00000022, 0x00000030] := by
  decide

theorem test_table_word_add64 : decodeTableWord 32 0xffff0002 = some (.add64 0xffff) := by decide

/-- The first step after reset runs the word placed for it, whatever `S_RESET` is. -/
theorem test_fetch_word_runs :
    (match step (State.reset.withFetchWord 32 0x30) with
      | .next t => decide (t.resp = some { rcode := 0, result := 0 })
      | .fault _ => false
      | .refused _ => false) = true := by decide +kernel

/-! ### The commands -/

/-- V-M10. -/
theorem test_mul64_all_limbs :
    view (step (port 7 0x00000001 0x0123456789abcdef 0xfedcba9876543210 1 2)) = some (0, 0x2236d88fe5618cf0, 7, 0) := by
  decide +kernel

/-- V-M3. -/
theorem test_mul64_wraps :
    view (step (port 7 0x00000001 0xffffffffffffffff 0xffffffffffffffff 1 2)) = some (0, 1, 7, 0) := by decide +kernel

/-- V-A5. -/
theorem test_add64_carries_and_wraps :
    view (step (port 7 0xffff0002 0xfffffffffffffff0 3 1 2)) = some (0, 0xffef, 7, 0) := by decide +kernel

/-- V-A10. -/
theorem test_add64_carries_into_limb_1 :
    view (step (port 7 0x12340002 0x0123456789abcdef 3 1 2)) = some (0, 0x0123456789abe023, 7, 0) := by decide +kernel

/-- V-H9. -/
theorem test_shr64_across_limbs :
    view (step (port 7 0x00001103 0x0123456789abcdef 3 1 2)) = some (0, 0x00000091a2b3c4d5, 7, 0) := by decide +kernel

/-- V-H6. -/
theorem test_shr64_by_63 :
    view (step (port 7 0x00003f03 0x8000000000000000 3 1 2)) = some (0, 1, 7, 0) := by decide +kernel

/-- V-L3: `X = 0` wraps below zero. -/
theorem test_seed_wraps_below_zero :
    view (step (port 7 0x00000010 9 9 0 5)) = some (0, 0, 0x00000000ffffffff, 0) := by decide +kernel

/-- V-L7: the smallest operand wraps in the other direction. -/
theorem test_seed_wraps_at_the_smallest :
    view (step (port 7 0x00000010 9 9 0x80000000 5)) = some (0, 0, 0x000000007fffffff, 0) := by decide +kernel

/-- V-L4. -/
theorem test_next32 :
    view (step (port 0x29 0x00000011 9 9 5 5)) = some (0, 0x12900da0, 0x25201b4143f15e36, 0) := by decide +kernel

/-- V-L10: the largest output. -/
theorem test_next32_largest :
    view (step (port 0x12868c49 0x00000011 9 9 5 5)) = some (0, 0x7fffffff, 0xfffffffe53bbdfd6, 0) := by decide +kernel

/-- V-S4: the largest sample. -/
theorem test_samplef_largest :
    view (step (port 0x250d1892 0x00000020 9 9 5 5)) = some (0, 0x3fefffffffc00000, 0xfffffffca777bfab, 0) := by
  decide +kernel

/-- V-S3: the draw 0x7fffffff gives `+0.0`. -/
theorem test_samplef_zero :
    view (step (port 0x12868c49 0x00000020 9 9 5 5)) = some (0, 0, 0xfffffffe53bbdfd6, 0) := by decide +kernel

/-- V-S7. -/
theorem test_sample1_128 :
    view (step (port 0x29 0x00000021 9 9 128 5)) = some (0, 19, 0x25201b4143f15e36, 0) := by decide +kernel

/-- V-S23: `u = −2^31`. -/
theorem test_sample1_smallest_bound :
    view (step (port 0x250d1892 0x00000021 9 9 0x80000000 5)) =
      some (0, 0xffffffff80000002, 0xfffffffca777bfab, 0) := by decide +kernel

/-- V-S13: SEED 1508611278 left this `S`; the rounded product is one more than the exact floor. -/
theorem test_sample2_rounds_up :
    view (step (port 0x59eb94cd 0x00000022 9 9 0 16777215)) =
      some (0, 0x0000000000ffffff, 0xfffffeff248bdb0a, 0) := by decide +kernel

/-- V-S25: the smallest width, with `l > u`. -/
theorem test_sample2_smallest_width :
    view (step (port 0x250d1892 0x00000022 9 9 0x7fffffff 0x80000000)) =
      some (0, 0xffffffff80000003, 0xfffffffca777bfab, 0) := by decide +kernel

/-- V-R2, V-R5: the first cause, read back. -/
theorem test_rdstat_reads_the_first_cause :
    view (exec .rdstat { State.resetWith 7 with FAULT := true, CAUSE := 2 }) = some (0, 0x21, 7, 0x21) := by
  decide +kernel

/-! ### Errors and reset -/

/-- V-E12: a rejected command answers its code and 0, and leaves `S`. -/
theorem test_reject_records_the_cause :
    view (step (port 7 0x00004003 1 0 0 0)) = some (3, 0, 7, 0x31) := by decide +kernel

/-- Program P7, steps 2 and 3: a later rejection leaves the first cause. -/
theorem test_reject_keeps_the_first_cause :
    view (step { port 0 0x000000ff 1 0 0 0 with FAULT := true, CAUSE := 2 }) = some (1, 0, 0, 0x21) := by
  decide +kernel

/-- R230: a reset that cuts off a command clears `STATUS` and delivers no response. -/
theorem test_reset_cuts_off_the_command :
    (match step { State.resetWith 7 with
        FAULT := true, CAUSE := 3, inputs := [.reset (some { Request.idle with cmd := 0x11 })] } with
      | .next t => decide (t.resp = none ∧ t.FAULT = false ∧ t.CAUSE = 0 ∧ t.inputs = [])
      | .fault _ => false
      | .refused _ => false) = true := by decide +kernel

/-! ### The host's side -/

/-- W11: the host coerces 3.7 to 3, and −3.7 to −3; R56: a NaN becomes 0. -/
theorem test_coerce :
    [coerce (.finite (37 / 10)), coerce (.finite (-37 / 10)), coerce .notFinite] = [3, 0xfffffffd, 0] := by
  decide +kernel

/-- V-C2 (program P5). -/
theorem test_color_42 :
    (deriveColor 42 .empty (State.resetWith 99)).map (fun p => (p.1, p.2.S)) =
      some (some ['#', 'e', 'c', 'f', '7', '8', 'd'], 0x846670dc1618bc54) := by decide +kernel

/-- V-C3: the third channel is 256, which has no rendering. -/
theorem test_color_8543 :
    (colorChannels 8543 .empty (State.resetWith 99)).map (fun p => p.1) = some [127, 127, 256] ∧
      (deriveColor 8543 .empty (State.resetWith 99)).map (fun p => p.1) = some none := by decide +kernel

/-- A SEED from another requester. -/
def seedRequest : Request := { cmd := 0x10, a := 1, b := 2, x := 42, y := 3 }

/-- R234: an ADD64 and a rejected word between the commands leave the color of V-C2; a SEED before the host's own does
too (R184). -/
theorem test_color_42_with_quiet_arrivals :
    (deriveColor 42
      { ColorArrivals.empty with
        beforeSeed := [.request { seedRequest with x := 7 }],
        beforeR := [.request { seedRequest with cmd := 0x00010002 }],
        beforeF := [.request { seedRequest with cmd := 0 }] } (State.resetWith 99)).map (fun p => (p.1, p.2.S)) =
      some (some ['#', 'e', 'c', 'f', '7', '8', 'd'], 0x846670dc1618bc54) := by decide +kernel

/-- R184, R233: another SEED 42 after the first draw makes the second draw repeat the first channel of V-C2, `ec`. -/
theorem test_color_42_overlapped :
    (colorChannels 42 { ColorArrivals.empty with beforeG := [.request seedRequest] } (State.resetWith 99)).map
      (fun p => p.1.take 2) = some [0xec, 0xec] := by decide +kernel

/-! ### Witnesses: states and operands that meet the hypotheses of the statements -/

theorem witness_DecodeOfEncodeIsTheCommand :
    (Instr.shr64 63).wellFormed = true ∧ (Instr.add64 0xffff).wellFormed = true := by decide

theorem witness_DecodedWordIsTheCommandsOnlyWord : decode 0x00003f03 = .command (.shr64 63) := by decide

/-- For each clause a word at a boundary of its ranges. -/
theorem witness_EveryWordDecodesByTheOrderedChecks :
    let fields (w : Word32) := (w.toNat % 256, w.toNat / 256 % 256, w.toNat / 65536)
    [0xffffff31, 0x0000ff30, 0xffff0001, 0x00004003, 0x00000001, 0xffff0002, 0x00003f03, 0x00000010, 0x00000011,
        0x00000020, 0x00000021, 0x00000022, 0x00000030].map fields =
      [(0x31, 0xff, 0xffff), (0x30, 0xff, 0), (0x01, 0, 0xffff), (0x03, 64, 0), (0x01, 0, 0), (0x02, 0, 0xffff),
        (0x03, 63, 0), (0x10, 0, 0), (0x11, 0, 0), (0x20, 0, 0), (0x21, 0, 0), (0x22, 0, 0), (0x30, 0, 0)] := by decide

theorem witness_NarrowDatapathComputesTheLimbProduct :
    (65535 : Nat) ≤ 65535 ∧ 65535 * 65535 + 65535 + 65535 = 2 ^ 32 - 1 := by decide

theorem witness_LimbShiftIsTheFlooredQuotient :
    (63 : Nat) ≤ 63 ∧ (shr64 0x8000000000000000 63).toNat = 0x8000000000000000 / 2 ^ 63 := by decide +kernel

theorem witness_Mul64AnswersTheProduct :
    (0x00000101 : Word32).toNat % 256 = 0x01 ∧ (0x00000101 : Word32) ≠ 0x00000001 := by decide

theorem witness_Add64AnswersTheSum :
    (65535 : Nat) ≤ 65535 ∧ (0x00000102 : Word32).toNat % 256 = 0x02 ∧ (0x00000102 : Word32).toNat / 256 % 256 ≠ 0 := by
  decide

theorem witness_Shr64AnswersTheShift :
    (63 : Byte).toNat ≤ 63 ∧ 64 ≤ (64 : Byte).toNat ∧
      ((0x00014003 : Word32).toNat % 256 = 0x03 ∧ (0x00014003 : Word32).toNat / 65536 ≠ 0) ∧
      ((0x00004003 : Word32).toNat % 256 = 0x03 ∧ (0x00004003 : Word32).toNat / 65536 = 0 ∧
        64 ≤ (0x00004003 : Word32).toNat / 256 % 256) := by decide

theorem witness_SeedLoadsTheOperandMinusOne :
    (∃ t, exec .seed (port 7 0x10 0 0 0 0) = .next t) ∧ (∃ t, exec .seed (port 7 0x10 0 0 0x80000000 0) = .next t) ∧
      (0x00000110 : Word32).toNat % 256 = 0x10 ∧ (0x00000110 : Word32) ≠ 0x00000010 :=
  ⟨⟨_, rfl⟩, ⟨_, rfl⟩, by decide, by decide⟩

theorem witness_Next32StepsAndAnswersTheHighBits :
    (port 7 0x00000111 1 2 3 4).inputs = [.request { cmd := 0x00000111, a := 1, b := 2, x := 3, y := 4 }] ∧
      (0x00000111 : Word32).toNat % 256 = 0x11 ∧ (0x00000111 : Word32) ≠ 0x00000011 := by decide

theorem witness_SampleFAnswersTheEncodedSample :
    (port 7 0x00000120 1 2 3 4).inputs = [.request { cmd := 0x00000120, a := 1, b := 2, x := 3, y := 4 }] ∧
      (0x00000120 : Word32).toNat % 256 = 0x20 ∧ (0x00000120 : Word32) ≠ 0x00000020 := by decide

theorem witness_Sample1AnswersTheScaledDraw :
    (0x00000121 : Word32).toNat % 256 = 0x21 ∧ (0x00000121 : Word32) ≠ 0x00000021 := by decide

theorem witness_Sample2AnswersTheScaledDraw :
    (0x00000122 : Word32).toNat % 256 = 0x22 ∧ (0x00000122 : Word32) ≠ 0x00000022 := by decide

theorem witness_RdstatAnswersTheStatus :
    (port 7 0x00000130 1 2 3 4).inputs = [.request { cmd := 0x00000130, a := 1, b := 2, x := 3, y := 4 }] ∧
      (0x00000130 : Word32).toNat % 256 = 0x30 ∧ (0x00000130 : Word32) ≠ 0x00000030 := by decide

/-- One request of each draw command. -/
def drawRequests : List Request := [0x11, 0x20, 0x21, 0x22].map fun w => { seedRequest with cmd := w }

theorem witness_DrawsAfterSeedDependOnTheSeedAlone :
    seedRequest.seeds = true ∧ { seedRequest with a := 9 }.seeds = true ∧
      seedRequest.x = { seedRequest with a := 9 }.x ∧ ∀ d ∈ drawRequests, d.draws = true := by decide

/-- Draws, an arithmetic command and a rejected word after a SEED. -/
theorem witness_StateAfterSeedCountsTheDraws :
    (∃ t, exec .next32 (port 7 0x11 0 0 0 0) = .next t) ∧ Instr.next32 ≠ Instr.seed ∧ seedRequest.seeds = true ∧
      ∀ r ∈ drawRequests ++ [{ seedRequest with cmd := 1 }, { seedRequest with cmd := 0x00010011 }],
        r.seeds = false :=
  ⟨⟨_, rfl⟩, by decide, by decide, by decide⟩

theorem witness_RoundingIsToNearestTiesToEven :
    ((1 : Rat) ≠ 0) ∧
      ((1 : Int) ≤ 1 ∧ (1 : Int) < 2147483647 ∧ (2 : Int) - 2 ^ 32 ≤ 2 - 2 ^ 32 ∧ (2 : Int) - 2 ^ 32 ≤ 2 ^ 32 ∧
        (2 : Int) - 2 ^ 32 ≠ 0) := by decide +kernel

theorem witness_Bits64IsTheBinary64Layout :
    (-1022 : Int) ≤ -1022 ∧ (-1022 : Int) ≤ 1023 ∧ (2 : Int) ^ 52 ≤ 2 ^ 52 ∧ (2 : Int) ^ 52 < 2 ^ 53 := by decide

/-- The samples at both ends: `q = 0`, `q = 1` and the largest `q`. -/
theorem witness_SampleIsTheUniqueNearestBelowOne :
    ((0 : Int) ≤ 0 ∧ (0 : Int) ≤ 2147483646) ∧ ((1 : Int) ≤ 1 ∧ (1 : Int) ≤ 2147483646) ∧
      ((1 : Int) ≤ 2147483646 ∧ (2147483646 : Int) ≤ 2147483646) := by decide

/-- Bounds at the ends of the signed 32-bit range, in both orders, and the bounds where the two clauses meet: `l = u` and
`l = u + 1`. -/
theorem witness_RangedDrawStaysInItsRange :
    ((-2 ^ 31 : Int) ≤ -2 ^ 31 ∧ (-2 ^ 31 : Int) ≤ 2 ^ 31 - 1 ∧ (2 ^ 31 - 1 : Int) ≤ 2 ^ 31 - 1) ∧
      (sampleRange 5 5 (State.resetWith 0x250d1892)).1 = 5 ∧ (sampleRange 6 5 (State.resetWith 0x250d1892)).1 = 6 ∧
      (sampleRange (-2 ^ 31) (2 ^ 31 - 1) (State.resetWith 0x250d1892)).1 = 2 ^ 31 - 2 ∧
      (sampleRange (2 ^ 31 - 1) (-2 ^ 31) (State.resetWith 0x250d1892)).1 = -2147483645 := by decide +kernel

theorem witness_NarrowRangesNeedNoRounding :
    ((-2 ^ 31 : Int) ≤ 1) ∧ ((1 : Int) ≤ 2 ^ 31 - 1) ∧ ((-2 ^ 31 : Int) ≤ 2 ^ 21 - 1) ∧
      ((2 ^ 21 - 1 : Int) ≤ 2 ^ 31 - 1) ∧ ((2 ^ 21 - 1 - 1 + 1 : Int).natAbs ≤ 2 ^ 21 - 1) := by decide

/-- One request for each of the four clauses, on an instance that takes it next. -/
theorem witness_BadWordsAreRejectedByPrecedence :
    ∀ w : Word32, (port 7 w 1 2 3 4).inputs = [.request { cmd := w, a := 1, b := 2, x := 3, y := 4 }] ∧
    [(0xffffff00 : Word32), 0x0000ff30, 0xffff0001, 0x00004003].map
        (fun w => (w.toNat % 256, w.toNat / 256 % 256, w.toNat / 65536)) =
      [(0x00, 0xff, 0xffff), (0x30, 0xff, 0), (0x01, 0, 0xffff), (0x03, 64, 0)] :=
  fun _ => ⟨rfl, by decide⟩

theorem witness_PerformedCommandsLeaveTheStatus :
    (port 7 0x00003f03 1 2 3 4).inputs = [.request { cmd := 0x00003f03, a := 1, b := 2, x := 3, y := 4 }] ∧
      decode 0x00003f03 = .command (.shr64 63) := by decide

/-- For each clause a word that meets it, on an instance that takes it next. -/
theorem witness_ResponsesCarryACodeAndAResult :
    ∀ w : Word32, (port 7 w 1 2 3 4).inputs = [.request { cmd := w, a := 1, b := 2, x := 3, y := 4 }] ∧
    [0x00000000, 0x00010001, 0x00004003, 0x00000001, 0xffff0002, 0x00003f03, 0x00000010, 0x00000011, 0x00000020,
        0x00000021, 0x00000022, 0x00000030].map decode =
      [.error .illegalOpcode, .error .reservedField, .error .shamtRange, .command .mul64, .command (.add64 0xffff),
        .command (.shr64 63), .command .seed, .command .next32, .command .samplef, .command .sample1,
        .command .sample2, .command .rdstat] :=
  fun _ => ⟨rfl, by decide⟩

theorem witness_FaultDoesNotChangeWhatCommandsDo :
    (port 7 0x00000011 1 2 3 4).inputs = [.request { cmd := 0x11, a := 1, b := 2, x := 3, y := 4 }] ∧
      decode 0x00000011 ≠ .command .rdstat := by decide

theorem witness_StepKeepsTheStatusLegal :
    (port 7 0x00000000 1 2 3 4).StatusLegal ∧ (∃ t, step (port 7 0x00000000 1 2 3 4) = .next t) ∧
      { State.resetWith 7 with FAULT := true, CAUSE := 3 }.StatusLegal :=
  ⟨by decide, ⟨_, rfl⟩, by decide⟩

theorem witness_StatusRecordsTheFirstRejection :
    (State.resetWith 7).FAULT = false ∧ (State.resetWith 7).CAUSE = 0 := by decide

theorem witness_OnlyResetClearsTheStatus :
    { State.resetWith 7 with FAULT := true, CAUSE := 3, inputs := [.reset none] }.inputs = [.reset none] ∧
      (∃ t, step { State.resetWith 7 with FAULT := true, CAUSE := 3, inputs := [.reset none] } = .next t ∧
        t.FAULT = false) :=
  ⟨rfl, _, rfl, rfl⟩

theorem witness_StepRunsTheDecodedCommand :
    (port 7 0xffff0002 1 2 3 4).inputs = [.request { cmd := 0xffff0002, a := 1, b := 2, x := 3, y := 4 }] ∧
      decode 0xffff0002 = .command (.add64 0xffff) := by decide

theorem witness_PortTakesOneInputAtATime :
    (State.resetWith 7).inputs = [] ∧
      (port 7 0x00000011 1 2 3 4).inputs = [.request { cmd := 0x11, a := 1, b := 2, x := 3, y := 4 }] := by decide

/-- A draw that is next, and the same draw before another SEED. -/
theorem witness_CommandDependsOnTheRecordAndItsRequest :
    [Input.request seedRequest] ≠ [] ∧
      (port 7 0x00000022 1 2 3 4).inputs = [.request { cmd := 0x22, a := 1, b := 2, x := 3, y := 4 }] := by decide

/-- For each command that reads a bus, two requests that agree on its buses and differ on every other one. -/
theorem witness_UnusedBusesHaveNoEffect :
    (decode 1 = .command .mul64 ∧ decode 2 = .command (.add64 0) ∧ decode 3 = .command (.shr64 0) ∧
      decode 0x10 = .command .seed ∧ decode 0x21 = .command .sample1 ∧ decode 0x22 = .command .sample2) ∧
    (port 7 1 1 2 3 4).inputs = [.request { cmd := 1, a := 1, b := 2, x := 3, y := 4 }] ∧
    ({ cmd := 1, a := 1, b := 2, x := 3, y := 4 } : Request).a = ({ cmd := 1, a := 1, b := 2, x := 9, y := 9 } : Request).a ∧
    ({ cmd := 1, a := 1, b := 2, x := 3, y := 4 } : Request).b = ({ cmd := 1, a := 1, b := 2, x := 9, y := 9 } : Request).b ∧
    ({ cmd := 0x22, a := 1, b := 2, x := 3, y := 4 } : Request).x =
      ({ cmd := 0x22, a := 9, b := 9, x := 3, y := 4 } : Request).x := by decide

theorem witness_OnlySeedAndDrawsTouchTheGenerator :
    Instr.next32 ∈ [Instr.next32, .samplef, .sample1, .sample2] ∧
      ((Instr.shr64 63).wellFormed = true ∧ Instr.shr64 63 ≠ Instr.seed ∧
        Instr.shr64 63 ∉ [Instr.next32, .samplef, .sample1, .sample2]) ∧
      decode 0x00010011 = .error .reservedField := by decide

theorem witness_OnlyDrawsAreNotIdempotent :
    ((Instr.shr64 63).wellFormed = true ∧ Instr.shr64 63 ∉ [Instr.next32, .samplef, .sample1, .sample2]) ∧
      Instr.next32 ∈ [Instr.next32, .samplef, .sample1, .sample2] ∧
      Instr.sample2 ∈ [Instr.next32, .samplef, .sample1, .sample2] := by decide

theorem witness_OtherCommandsDoNotDisturbTheSequence :
    (∃ r ∈ [seedRequest, { seedRequest with cmd := 0 }], ∃ c, decode r.cmd = .error c) :=
  ⟨{ seedRequest with cmd := 0 }, by decide, .illegalOpcode, by decide⟩

theorem witness_InstancesShareNothing :
    ({ instances := [State.resetWith 1, State.resetWith 2] } : Platform).instances[1]? =
      ({ instances := [State.resetWith 3, State.resetWith 2] } : Platform).instances[1]? ∧ (0 : Nat) ≠ 1 := by decide

theorem witness_CoercionTruncatesThenWraps : (0 : Rat) ≤ 37 / 10 ∧ (-37 / 10 : Rat) ≤ 0 := by decide +kernel

theorem witness_LimbArraysBecomeTheirBusValue :
    (65535 : Nat) < 65536 ∧ busOfLimbs [65535, 65535, 65535, 65535] = some 0xffffffffffffffff ∧
      [(1 : Nat), 2, 3].length ≠ 4 ∧ (∃ x ∈ [(65536 : Nat), 0, 0, 0], 65536 ≤ x) :=
  ⟨by decide, by decide +kernel, by decide, 65536, by decide, by decide⟩

theorem witness_AssembledLinesBecomeTheirRequests :
    ((0 : Int) ≤ 65535 ∧ (65535 : Int) ≤ 65535) ∧ ((0 : Int) ≤ 63 ∧ (63 : Int) ≤ 63) ∧
      ((-2 ^ 31 : Int) ≤ -2 ^ 31 ∧ (-2 ^ 31 : Int) ≤ 2 ^ 31 - 1) ∧
      ((65535 : Int) < 65536 ∧ (63 : Int) < 64 ∧ (2 ^ 31 - 1 : Int) < 2 ^ 31) ∧
      2 < ([1, 2, 3] : List Int).length ∧ assemble (.add64 1 65536) = none ∧ assemble (.shr64 1 64) = none := by
  decide +kernel

/-- Quiet inputs between the host's commands and a SEED before them; and a draw that overlaps. -/
theorem witness_ColorDependsOnTheSeedAloneUnderExclusiveUse :
    ({ ColorArrivals.empty with
        beforeSeed := [.request seedRequest],
        beforeG := [.request { seedRequest with cmd := 0x01 }] } : ColorArrivals).exclusive = true ∧
      ColorArrivals.empty.exclusive = true ∧ { seedRequest with cmd := 0x11 }.draws = true ∧
      ({ ColorArrivals.empty with beforeR := [.request { seedRequest with cmd := 0x11 }] } : ColorArrivals).exclusive =
        false ∧
      ({ ColorArrivals.empty with beforeF := [.reset none] } : ColorArrivals).exclusive = false := by decide

/-- V-C2 lies in the first case (`r + g = 27`), V-C3 in the third (`r = g = 128`); sums at the ends of the second. -/
theorem witness_ColorChannelsStayInTheirRanges :
    (19 : Int) + 8 < 128 ∧ (128 : Int) ≤ 64 + 64 ∧ (128 : Int) + 127 ≤ 255 ∧ (128 : Int) + 128 = 256 ∧
      (colorChannels 42 .empty (State.resetWith 99)).map (fun p => p.1) = some [255 - 19, 255 - 8, 0x8d] ∧
      (colorChannels 8543 .empty (State.resetWith 99)).map (fun p => p.1) = some [255 - 128, 255 - 128, 256] := by
  decide +kernel

end Sys2Proof.Tests
end

section
/-! PROOFS. The limb algorithms in terms of native 64-bit arithmetic (R100, R103). -/

namespace Sys2Proof.Machine

/-- A limb list is its first `n` limbs and, above them, the others. -/
theorem limbValue_take_add_drop (n : Nat) (l : List Nat) :
    limbValue (l.take n) + 65536 ^ n * limbValue (l.drop n) = limbValue l := by
  induction n generalizing l with
  | zero => simp
  | succ n ih =>
    cases l with
    | nil => simp
    | cons x xs =>
      rw [List.take_succ_cons, List.drop_succ_cons, limbValue_cons, limbValue_cons, ← ih xs]
      ring

/-- Discarding the limbs above the fourth is reducing the value mod `2^64` (R9, R27). -/
theorem ofLimbs_eq_ofNat_limbValue (l : List Nat) : ofLimbs l = BitVec.ofNat 64 (limbValue l) := by
  have hsplit := limbValue_take_add_drop 4 l
  apply BitVec.eq_of_toNat_eq
  rw [ofLimbs, BitVec.toNat_ofNat, BitVec.toNat_ofNat]
  omega

/-- A row of R100 adds `bj` times the limbs of `a` and the carry to its window, exactly. -/
theorem limbValue_mulRow (bj : Nat) (as window : List Nat) (k : Nat) (hlen : window.length = as.length) :
    limbValue (mulRow bj as window k) = limbValue as * bj + limbValue window + k := by
  induction as generalizing window k with
  | nil =>
    cases window with
    | nil => simp [mulRow]
    | cons p ps => simp at hlen
  | cons a as ih =>
    cases window with
    | nil => simp at hlen
    | cons p ps =>
      have hdigit := Nat.mod_add_div (a * bj + p + k) 65536
      rw [mulRow, limbValue_cons, ih ps _ (Nat.succ.inj hlen), limbValue_cons, limbValue_cons]
      linear_combination hdigit

/-- A row of R100 is one limb longer than its window. -/
theorem mulRow_length (bj : Nat) (as window : List Nat) (k : Nat) (hlen : window.length = as.length) :
    (mulRow bj as window k).length = window.length + 1 := by
  induction as generalizing window k with
  | nil =>
    cases window with
    | nil => rfl
    | cons p ps => simp at hlen
  | cons a as ih =>
    cases window with
    | nil => simp at hlen
    | cons p ps => rw [mulRow, List.length_cons, ih ps _ (Nat.succ.inj hlen), List.length_cons]

/-- The schoolbook rows of R100 make the exact product, added to the window that they begin on. -/
theorem limbValue_mulRows (as bs window : List Nat) (hlen : window.length = as.length) :
    limbValue (mulRows as bs window) = limbValue as * limbValue bs + limbValue window := by
  induction bs generalizing window with
  | nil => simp [mulRows]
  | cons bj bs ih =>
    have hvalue := limbValue_mulRow bj as window 0 hlen
    have hlength := mulRow_length bj as window 0 hlen
    unfold mulRows
    match hrow : mulRow bj as window 0 with
    | [] => simp [hrow] at hlength
    | lo :: rest =>
      rw [hrow, limbValue_cons] at hvalue
      rw [hrow, List.length_cons, Nat.succ_inj, hlen] at hlength
      simp only [limbValue_cons, ih rest hlength]
      linear_combination hvalue

/-- The limb product is the product mod `2^64` (R100). -/
theorem mul64_eq_mul (a b : Word64) : mul64 a b = a * b := by
  rw [mul64, ofLimbs_eq_ofNat_limbValue, limbValue_mulRows (limbs a) (limbs b) [0, 0, 0, 0] rfl,
    limbValue_limbs, limbValue_limbs]
  apply BitVec.eq_of_toNat_eq
  simp

/-- The carry chain of R103 makes the exact sum but for a carry out of the last limb, which it discards. -/
theorem limbValue_addCarry (l : List Nat) (k : Nat) :
    ∃ carry, limbValue (addCarry l k) + 65536 ^ l.length * carry = limbValue l + k := by
  induction l generalizing k with
  | nil => exact ⟨k, by simp [addCarry]⟩
  | cons x xs ih =>
    obtain ⟨carry, hcarry⟩ := ih ((x + k) / 65536)
    have hdigit := Nat.mod_add_div (x + k) 65536
    refine ⟨carry, ?_⟩
    rw [addCarry, limbValue_cons, limbValue_cons, List.length_cons]
    linear_combination 65536 * hcarry + hdigit

/-- The limb sum is the sum mod `2^64` (R103). -/
theorem add64_eq_add (a : Word64) (n : Nat) : add64 a n = a + BitVec.ofNat 64 n := by
  obtain ⟨carry, hcarry⟩ := limbValue_addCarry (limbs a) n
  rw [limbs_length, limbValue_limbs] at hcarry
  rw [add64, ofLimbs_eq_ofNat_limbValue]
  apply BitVec.eq_of_toNat_eq
  rw [BitVec.toNat_ofNat, BitVec.toNat_add, BitVec.toNat_ofNat]
  omega

/-- The multiplier of the generator as one number (R120). -/
theorem lcgM_eq : lcgM = 0x5851F42D4C957F2D := by decide

/-- The generator's step in native arithmetic (R122). -/
theorem lcgStep_eq (v : Word64) : lcgStep v = v * 0x5851F42D4C957F2D + 1 := by
  rw [lcgStep, mul64_eq_mul, add64_eq_add, lcgM_eq]
  rfl

end Sys2Proof.Machine
end

section
/-! PROOFS. What a step does with each kind of input, and what a command reads of the state. -/

namespace Sys2Proof

/-- The draws, listed (R126). -/
theorem Instr.draws_iff_mem (i : Instr) : i.draws = true ↔ i ∈ [.next32, .samplef, .sample1, .sample2] := by
  cases i <;> simp [Instr.draws]

theorem Instr.wellFormed_of_draws {i : Instr} (h : i.draws = true) : i.wellFormed = true := by
  cases i with
  | shr64 n => cases h
  | _ => rfl

/-- The shift amount of a SHR64 that the opcode map answers is the `SHAMT` field it was given (R64). -/
theorem shamt_of_commandOf_eq_shr64 {op shamt n : Byte} {imm16 : Imm16}
    (h : commandOf op shamt imm16 = some (.shr64 n)) : n = shamt := by
  unfold commandOf at h
  split at h <;> cases h
  rfl

/-- The decoder answers well-formed commands only: it rejects the shift amounts from 64 on (R62, R68). -/
theorem wellFormed_of_decode {w : Word32} {i : Instr} (h : decode w = .command i) : i.wellFormed = true := by
  unfold decode at h
  match hc : commandOf (opField w) (shamtField w) (imm16Field w) with
  | none => simp [hc] at h
  | some j =>
    simp only [hc] at h
    split_ifs at h with _ _ hshamt
    obtain rfl := Decoded.command.inj h
    cases j with
    | shr64 n =>
      have hop : opField w = 0x03 := opcode_of_commandOf hc
      obtain rfl := shamt_of_commandOf_eq_shr64 hc
      simpa [Instr.wellFormed, hop] using hshamt
    | _ => rfl

end Sys2Proof

namespace Sys2Proof.Machine

theorem exec_of_wellFormed {i : Instr} (hwf : i.wellFormed = true) (s : State) :
    ∃ v, exec i s = .next ((s.setS (sAfter i s)).respond v) := by
  obtain ⟨hill, -⟩ | ⟨-, hexec⟩ := exec_shape i s
  · rw [hwf] at hill; cases hill
  · exact hexec

theorem step_of_reset {s : State} {o : Option Request} {rest : List Input} (h : s.inputs = .reset o :: rest) :
    step s = .next (resetTo Config.sReset rest) := by
  simp only [step, stepWith, h]

/-- A request whose word does not decode takes the error path (R202). -/
theorem step_of_error {s : State} {r : Request} {rest : List Input} {c : ErrorCode}
    (h : s.inputs = .request r :: rest) (hd : decode r.cmd = .error c) :
    step s = .next ((s.take r rest).reject c) := by
  rw [step_of_request h, perform, State.take_req, hd]

/-- A request whose word decodes to a command is that command, performed (R68). -/
theorem step_of_command {s : State} {r : Request} {rest : List Input} {i : Instr}
    (h : s.inputs = .request r :: rest) (hd : decode r.cmd = .command i) :
    step s = exec i (s.take r rest) := by
  rw [step_of_request h, perform, State.take_req, hd]

/-- The block always goes on: no input stops it, whatever its `S_RESET` (R206). -/
theorem stepWith_answers_next (sReset : Word64) (s : State) : ∃ t, stepWith sReset s = .next t := by
  unfold stepWith
  match s.inputs with
  | [] => exact ⟨_, rfl⟩
  | .reset _ :: rest => exact ⟨_, rfl⟩
  | .request r :: rest =>
    simp only [perform]
    match decode (s.take r rest).req.cmd with
    | .error c => exact ⟨_, rfl⟩
    | .command i => exact exec_answers_next i _

/-- Everything a step can do to `STATUS`: keep it, clear it by a reset, or record a rejection (R203, R230). -/
theorem step_status {s t : State} (h : step s = .next t) :
    (t.FAULT = s.FAULT ∧ t.CAUSE = s.CAUSE) ∨
    (∃ o rest, s.inputs = .reset o :: rest ∧ t.FAULT = false ∧ t.CAUSE = 0) ∨
    (∃ c, t.FAULT = true ∧ t.CAUSE = if s.FAULT then s.CAUSE else errorCode c) := by
  obtain ⟨-, rfl⟩ | ⟨o, rest, hin, rfl⟩ | ⟨r, rest, c, -, -, rfl⟩ | ⟨r, rest, i, -, hd, hexec⟩ := step_cases h
  · exact .inl ⟨rfl, rfl⟩
  · exact .inr (.inl ⟨o, rest, hin, rfl, rfl⟩)
  · exact .inr (.inr ⟨c, rfl, rfl⟩)
  · obtain ⟨v, hv⟩ := exec_of_wellFormed (wellFormed_of_decode hd) (s.take r rest)
    obtain rfl := Host.Outcome.next.inj (hv.symm.trans hexec)
    exact .inl ⟨rfl, rfl⟩

/-- SHR64 answers a next state on both sides of its range check (R106). -/
theorem exec_shr64 (n : Byte) (s : State) :
    exec (.shr64 n) s = .next (if 64 ≤ n.toNat then s.reject .shamtRange else s.respond (shr64 s.req.a n.toNat)) := by
  by_cases hrange : 64 ≤ n.toNat <;> simp [exec, execShr64, shiftAmount, hrange]

/-- A command reads neither the last response nor the inputs still to come, and it leaves those inputs (R25, R31). -/
theorem exec_ignores_port {i : Instr} {s t : State} (h : exec i s = .next t) (answer : Option Response)
    (rest : List Input) :
    exec i { s with resp := answer, inputs := rest } = .next { t with inputs := rest } := by
  cases i with
  | shr64 n =>
    rw [exec_shr64] at h ⊢
    cases h
    split_ifs <;> rfl
  | _ => cases h; rfl

/-- A command that is neither SEED nor a draw does not read `S` (R21). -/
theorem exec_ignores_S {i : Instr} {s t : State} (hseed : i ≠ .seed) (hdraw : i.draws = false)
    (h : exec i s = .next t) (v : Word64) :
    exec i { s with S := v } = .next { t with S := v } := by
  cases i with
  | seed => exact absurd rfl hseed
  | next32 | samplef | sample1 | sample2 => cases hdraw
  | shr64 n =>
    rw [exec_shr64] at h ⊢
    cases h
    split_ifs <;> rfl
  | mul64 | add64 | rdstat => cases h; rfl

end Sys2Proof.Machine
end

section
/-! PROOFS. The statements about the state of the block (spec/10_state.md). -/

namespace Sys2Proof.Machine

/-- The codes of R200 that a rejection can answer. -/
theorem errorCode_range (c : ErrorCode) : 1 ≤ (errorCode c).toNat ∧ (errorCode c).toNat ≤ 3 := by
  cases c <;> decide

/-- Settles O36: reset clears both fields. -/
theorem resetStatusIsLegal : Obligations.ResetStatusIsLegal :=
  ⟨fun _ => rfl, fun hfault => nomatch hfault⟩

/-- Settles O37, by what a step can do to `STATUS`: a rejection records a code from 1 to 3, or keeps a legal cause. -/
theorem stepKeepsTheStatusLegal : Obligations.StepKeepsTheStatusLegal := by
  intro s t hlegal hstep
  obtain ⟨hfault, hcause⟩ | ⟨-, -, -, hfault, hcause⟩ | ⟨c, hfault, hcause⟩ := step_status hstep
  · rwa [State.StatusLegal, hfault, hcause]
  · simp [State.StatusLegal, hfault, hcause]
  · rw [State.StatusLegal, hfault, hcause]
    refine ⟨nofun, fun _ => ?_⟩
    split_ifs with hs
    · exact hlegal.2 hs
    · exact errorCode_range c

/-- A state whose inputs still to come are these requests is as it is when they are given again. -/
theorem withRequests_eq_self {s : State} {rs : List Request} (h : s.inputs = rs.map .request) :
    s.withRequests rs = s := by
  rw [State.withRequests, ← h]

theorem rejectedFor_of_error {r : Request} {c : ErrorCode} (hd : decode r.cmd = .error c) :
    r.rejectedFor = some c := by
  rw [Request.rejectedFor, hd]

theorem rejectedFor_of_command {r : Request} {i : Instr} (hd : decode r.cmd = .command i) :
    r.rejectedFor = none := by
  rw [Request.rejectedFor, hd]

theorem rejectedFor_isSome_iff (r : Request) : r.rejectedFor.isSome = true ↔ ∃ c, decode r.cmd = .error c := by
  match hd : decode r.cmd with
  | .error c => simp [rejectedFor_of_error hd]
  | .command i => simp [rejectedFor_of_command hd]

/-- One request of a list: the step leaves the others, and `STATUS` changes only if the request is rejected (R203). -/
theorem step_withRequests_cons (s : State) (r : Request) (rs : List Request) :
    ∃ t, step (s.withRequests (r :: rs)) = .next t ∧ t.inputs = rs.map .request ∧
      t.FAULT = (s.FAULT || r.rejectedFor.isSome) ∧
      t.CAUSE = if s.FAULT then s.CAUSE else (r.rejectedFor.map errorCode).getD s.CAUSE := by
  have hin : (s.withRequests (r :: rs)).inputs = .request r :: rs.map .request := rfl
  match hd : decode r.cmd with
  | .error c =>
    rw [rejectedFor_of_error hd]
    exact ⟨_, step_of_error hin hd, rfl, by simp, rfl⟩
  | .command i =>
    obtain ⟨v, hexec⟩ := exec_of_wellFormed (wellFormed_of_decode hd) ((s.withRequests (r :: rs)).take r _)
    rw [rejectedFor_of_command hd]
    exact ⟨_, (step_of_command hin hd).trans hexec, rfl, by simp [State.withRequests], by simp [State.withRequests]⟩

/-- `STATUS` after any requests, from any state: the first rejection sets it, and it stays as it is from then on. -/
theorem run_withRequests_status (s : State) (rs : List Request) :
    ∃ t, run rs.length (s.withRequests rs) = .next t ∧
      t.FAULT = (s.FAULT || rs.any fun r => r.rejectedFor.isSome) ∧
      t.CAUSE = if s.FAULT then s.CAUSE
        else ((rs.filterMap Request.rejectedFor).head?.map errorCode).getD s.CAUSE := by
  induction rs generalizing s with
  | nil => exact ⟨s.withRequests [], rfl, by simp [State.withRequests], by simp [State.withRequests]⟩
  | cons r rs ih =>
    obtain ⟨t, hstep, hin, hfault, hcause⟩ := step_withRequests_cons s r rs
    obtain ⟨u, hrun, hfault', hcause'⟩ := ih t
    rw [withRequests_eq_self hin] at hrun
    refine ⟨u, (run_of_step _ hstep).trans hrun, ?_⟩
    match hr : r.rejectedFor with
    | none => simp [hfault', hcause', hfault, hcause, hr]
    | some c => simp [hfault', hcause', hfault, hcause, hr]

/-- Settles O38, by what any list of requests leaves in `STATUS`. -/
theorem statusRecordsTheFirstRejection : Obligations.StatusRecordsTheFirstRejection := by
  intro s rs hclear hzero
  obtain ⟨t, hrun, hfault, hcause⟩ := run_withRequests_status s rs
  refine ⟨t, hrun, ?_, ?_⟩
  · simp only [hfault, hclear, Bool.false_or, List.any_eq_true, rejectedFor_isSome_iff]
  · rw [hcause, hclear, hzero]
    match (rs.filterMap Request.rejectedFor).head? with
    | none => rfl
    | some .illegalOpcode => rfl
    | some .reservedField => rfl
    | some .shamtRange => rfl

theorem status_eq_zero {s : State} (hfault : s.FAULT = false) (hcause : s.CAUSE = 0) : s.status = 0 := by
  rw [State.status, hfault, hcause]
  rfl

/-- Settles O39: what a reset leaves is written out, and the two other things that a step can do to `STATUS` keep a
`FAULT` that is set and its cause. -/
theorem onlyResetClearsTheStatus : Obligations.OnlyResetClearsTheStatus := by
  refine ⟨⟨rfl, rfl, rfl, status_eq_zero rfl rfl⟩,
    fun s o rest hin => ⟨_, step_of_reset hin, rfl, rfl, rfl, status_eq_zero rfl rfl, rfl, rfl⟩, ?_⟩
  intro s t hstep hset hchanged
  obtain ⟨hfault, hcause⟩ | ⟨o, rest, hin, -, -⟩ | ⟨c, hfault, hcause⟩ := step_status hstep
  · simp [hfault, hcause, hset] at hchanged
  · exact ⟨o, rest, hin⟩
  · simp [hfault, hcause, hset] at hchanged

/-- Settles O43: taking the request overwrites the earlier one, and neither path reads the earlier response or the inputs
still to come. -/
theorem commandDependsOnTheRecordAndItsRequest : Obligations.CommandDependsOnTheRecordAndItsRequest := by
  intro s r old answer rest rest' hin
  have hin' : { s with req := old, resp := answer, inputs := .request r :: rest' }.inputs = .request r :: rest' := rfl
  match hd : decode r.cmd with
  | .error c => exact ⟨_, step_of_error hin hd, rfl, step_of_error hin' hd⟩
  | .command i =>
    obtain ⟨v, hexec⟩ := exec_of_wellFormed (wellFormed_of_decode hd) (s.take r rest)
    exact ⟨_, (step_of_command hin hd).trans hexec, rfl,
      (step_of_command hin' hd).trans (exec_ignores_port hexec answer rest')⟩

/-- Settles O45: `sAfter` says what each command leaves in `S`, and `lcgStep_eq` what a draw makes of it. -/
theorem onlySeedAndDrawsTouchTheGenerator : Obligations.OnlySeedAndDrawsTouchTheGenerator := by
  refine ⟨fun _ _ => rfl, ?draws, ?others, ?rejected⟩
  case draws =>
    intro i s hmem
    have hdraw := (Instr.draws_iff_mem i).2 hmem
    have hseed : i ≠ .seed := by rintro rfl; cases hdraw
    obtain ⟨v, hexec⟩ := exec_of_wellFormed (Instr.wellFormed_of_draws hdraw) s
    exact ⟨_, hexec, by simp [sAfter, hseed, hdraw, lcgStep_eq]⟩
  case others =>
    intro i s v hwf hseed hmem
    have hdraw : i.draws = false := by rwa [← Instr.draws_iff_mem, Bool.not_eq_true] at hmem
    obtain ⟨result, hexec⟩ := exec_of_wellFormed hwf s
    exact ⟨_, hexec, by simp [sAfter, hseed, hdraw], exec_ignores_S hseed hdraw hexec v⟩
  case rejected =>
    intro s r rest c hin hd
    exact ⟨_, step_of_error hin hd, rfl⟩

/-- A step in place `j` puts what that state's own step answers in its place (R30). -/
theorem stepAt_of_getElem? {p : Platform} {j : Nat} {s t : State} (hget : p.instances[j]? = some s)
    (hstep : stepWith (Config.sResetOf j) s = .next t) :
    p.stepAt j = .next { instances := p.instances.set j t } := by
  simp only [Platform.stepAt, hget, hstep]

theorem stepAt_of_getElem?_none {p : Platform} {j : Nat} (hget : p.instances[j]? = none) : p.stepAt j = .next p := by
  simp only [Platform.stepAt, hget]

/-- Settles O49: both platforms put the same next state in place `j` of their lists, and touch no other place. -/
theorem instancesShareNothing : Obligations.InstancesShareNothing := by
  intro p p' j hagree
  match hget : p.instances[j]? with
  | none =>
    have hget' := hagree.symm.trans hget
    exact ⟨p, p', stepAt_of_getElem?_none hget, stepAt_of_getElem?_none hget', hagree, rfl, fun _ _ => rfl⟩
  | some s =>
    have hget' := hagree.symm.trans hget
    obtain ⟨t, hstep⟩ := stepWith_answers_next (Config.sResetOf j) s
    obtain ⟨hj, -⟩ := List.getElem?_eq_some_iff.1 hget
    obtain ⟨hj', -⟩ := List.getElem?_eq_some_iff.1 hget'
    refine ⟨_, _, stepAt_of_getElem? hget hstep, stepAt_of_getElem? hget' hstep, ?_, List.length_set, ?_⟩
    · simp only [List.getElem?_set_self hj, List.getElem?_set_self hj']
    · exact fun k hk => List.getElem?_set_ne hk.symm

end Sys2Proof.Machine
end

section
/-! PROOFS. The limb shift in native arithmetic (R105), and the limbs of a value put together from limbs (R9). -/

namespace Sys2Proof.Machine

/-- Phase 1 of R105 drops the `w` lowest limbs. -/
theorem limbValue_shiftLimbs (a : Word64) {w : Nat} (hw : w ≤ 3) :
    limbValue (shiftLimbs a w) = a.toNat / 65536 ^ w := by
  have ha := a.isLt
  interval_cases w <;> simp [shiftLimbs, limb_eq] <;> omega

theorem shiftLimbs_lt (a : Word64) (w : Nat) : ∀ x ∈ shiftLimbs a w, x < 65536 := by
  intro x hx
  obtain ⟨i, -, rfl⟩ := List.mem_map.1 hx
  split_ifs
  · exact limb_lt a (i + w)
  · decide

/-- A limb shifted down by `s`, under the bits that the limb above it gives up, is their sum: the bits do not meet. -/
theorem shiftRight_or_carry {s x : Nat} (hs : s < 16) (hx : x < 65536) (c : Nat) :
    (x >>> s ||| c <<< (16 - s)) = x / 2 ^ s + 2 ^ (16 - s) * c := by
  have hlow : x >>> s < 2 ^ (16 - s) := by
    rw [Nat.shiftRight_eq_div_pow, Nat.div_lt_iff_lt_mul (by positivity), ← pow_add, Nat.sub_add_cancel hs.le]
    exact hx
  rw [Nat.lor_comm, ← Nat.shiftLeft_add_eq_or_of_lt hlow, Nat.shiftLeft_eq, Nat.shiftRight_eq_div_pow]
  ring

/-- Phase 2 of R105 divides the value by `2^s`, and carries the remainder out at the top of a limb. -/
theorem limbValue_shiftBits {s : Nat} (hs : s < 16) (l : List Nat) (hl : ∀ x ∈ l, x < 65536) :
    limbValue (shiftBits s l).1 = limbValue l / 2 ^ s ∧
      (shiftBits s l).2 = (limbValue l % 2 ^ s) <<< (16 - s) := by
  have hpow : (65536 : Nat) = 2 ^ s * 2 ^ (16 - s) := by rw [← pow_add, Nat.add_sub_cancel' hs.le]; rfl
  induction l with
  | nil => simp [shiftBits]
  | cons x xs ih =>
    obtain ⟨hvalue, hcarry⟩ := ih fun y hy => hl y (List.mem_cons_of_mem x hy)
    have hsplit : x + 65536 * limbValue xs = x + 2 ^ s * (2 ^ (16 - s) * limbValue xs) := by rw [hpow]; ring
    constructor
    · have hxs := Nat.mod_add_div (limbValue xs) (2 ^ s)
      rw [shiftBits, limbValue_cons, limbValue_cons, hvalue, hcarry, shiftRight_or_carry hs (hl x List.mem_cons_self),
        hsplit, Nat.add_mul_div_left _ _ (by positivity), hpow]
      linear_combination 2 ^ (16 - s) * hxs
    · rw [shiftBits, limbValue_cons, hsplit, Nat.add_mul_mod_self_left]

/-- The limb shift is the logical right shift (R105). -/
theorem shr64_eq_ushiftRight (a : Word64) {n : Nat} (hn : n < 64) : shr64 a n = a >>> n := by
  obtain ⟨hvalue, -⟩ := limbValue_shiftBits (Nat.mod_lt n (by decide)) (shiftLimbs a (n / 16)) (shiftLimbs_lt a _)
  have hpow : (65536 : Nat) ^ (n / 16) * 2 ^ (n % 16) = 2 ^ n := by
    rw [show (65536 : Nat) = 2 ^ 16 by rfl, ← pow_mul, ← pow_add, Nat.div_add_mod]
  rw [shr64, ofLimbs_eq_ofNat_limbValue, hvalue, limbValue_shiftLimbs a (by omega), Nat.div_div_eq_div_mul, hpow]
  apply BitVec.eq_of_toNat_eq
  rw [BitVec.toNat_ofNat, BitVec.toNat_ushiftRight, Nat.shiftRight_eq_div_pow,
    Nat.mod_eq_of_lt ((Nat.div_le_self _ _).trans_lt a.isLt)]

/-- The value of four limbs is the number that R9 writes. -/
theorem ofLimbs_toNat {l0 l1 l2 l3 : Nat} (h0 : l0 < 65536) (h1 : l1 < 65536) (h2 : l2 < 65536) (h3 : l3 < 65536) :
    (ofLimbs [l0, l1, l2, l3]).toNat = l0 + l1 * 65536 + l2 * 65536 ^ 2 + l3 * 65536 ^ 3 := by
  simp only [ofLimbs_eq_ofNat_limbValue, BitVec.toNat_ofNat, limbValue_cons, limbValue_nil]
  omega

/-- Taking a value apart gives the limbs that it was put together from (R9). -/
theorem limbs_ofLimbs {l0 l1 l2 l3 : Nat} (h0 : l0 < 65536) (h1 : l1 < 65536) (h2 : l2 < 65536) (h3 : l3 < 65536) :
    limbs (ofLimbs [l0, l1, l2, l3]) = [l0, l1, l2, l3] := by
  simp only [limbs, limb_eq, ofLimbs_toNat h0 h1 h2 h3, List.cons.injEq, and_true]
  refine ⟨?_, ?_, ?_, ?_⟩ <;> omega

theorem busOfLimbs_eq_none_iff (l : List Nat) : busOfLimbs l = none ↔ l.length ≠ 4 ∨ ∃ x ∈ l, 65536 ≤ x := by
  simp [busOfLimbs, imp_iff_not_or]

end Sys2Proof.Machine
end

section
/-! PROOFS. Rounding to binary64 (R140): the significand that `RNE64` picks, how far it moves a value, and when the
result is a binary64 value; then the sample of a draw (R142). -/

namespace Sys2Proof.Machine

/-- The binade of a nonzero rational is the largest exponent whose power of two is not above it (R140). -/
theorem le_binade_iff {x : ℚ} (hx : x ≠ 0) (e : ℤ) : e ≤ binade x ↔ (2 : ℚ) ^ e ≤ |x| := by
  obtain ⟨lower, upper⟩ := binade_spec x hx
  refine ⟨fun h => (zpow_le_zpow_right₀ one_le_two h).trans lower, fun h => ?_⟩
  exact Int.lt_add_one_iff.1 ((zpow_lt_zpow_iff_right₀ one_lt_two).1 (h.trans_lt upper))

@[simp] theorem rne64_zero : rne64 0 = 0 := if_pos rfl

/-- What `RNE64` makes of a nonzero value: a significand from `2^52` to `2^53`, nearest to the scaled value and even if
that is halfway, at the value's binade and with its sign (R140). -/
theorem rne64_spec {x : ℚ} (hx : x ≠ 0) :
    ∃ m : ℤ, 2 ^ 52 ≤ m ∧ m ≤ 2 ^ 53 ∧ |(m : ℚ) - |x| / 2 ^ (binade x - 52)| ≤ 1 / 2 ∧
      (|(m : ℚ) - |x| / 2 ^ (binade x - 52)| = 1 / 2 → Even m) ∧
      rne64 x = (x.num.sign : ℚ) * m * 2 ^ (binade x - 52) := by
  obtain ⟨lower, upper⟩ := binade_spec x hx
  obtain ⟨near, even⟩ := nearestEven_spec (|x| / 2 ^ (binade x - 52))
  have hul : (0 : ℚ) < 2 ^ (binade x - 52) := by positivity
  have hlow : (2 : ℚ) ^ 52 ≤ |x| / 2 ^ (binade x - 52) := by
    rwa [le_div_iff₀ hul, ← zpow_natCast, ← zpow_add₀ two_ne_zero, Nat.cast_ofNat, add_sub_cancel]
  have hhigh : |x| / 2 ^ (binade x - 52) < (2 : ℚ) ^ 53 := by
    rw [div_lt_iff₀ hul, ← zpow_natCast, ← zpow_add₀ two_ne_zero]
    exact upper.trans_eq (congrArg _ (by push_cast; ring))
  obtain ⟨hbelow, habove⟩ := abs_le.1 near
  refine ⟨_, ?_, ?_, near, even, ?_⟩
  · have : (2 : ℚ) ^ 52 - 1 < (nearestEven (|x| / 2 ^ (binade x - 52)) : ℚ) := by linarith
    exact Int.le_of_sub_one_lt (by exact_mod_cast this)
  · have : (nearestEven (|x| / 2 ^ (binade x - 52)) : ℚ) < 2 ^ 53 + 1 := by linarith
    exact Int.lt_add_one_iff.1 (by exact_mod_cast this)
  · simp only [rne64, if_neg hx, pow2_eq_zpow, absRat_eq_abs]

/-- A rational is its sign times its magnitude. -/
theorem sign_num_mul_abs (x : ℚ) : (x.num.sign : ℚ) * |x| = x := by
  obtain h | h | h := lt_trichotomy x 0
  · rw [Int.sign_eq_neg_one_of_neg (Rat.num_neg.2 h), abs_of_neg h]; push_cast; ring
  · simp [h]
  · rw [Int.sign_eq_one_of_pos (Rat.num_pos.2 h), abs_of_pos h]; push_cast; ring

/-- `RNE64` moves a value by at most half a unit of its last place. -/
theorem abs_rne64_sub_le {x : ℚ} (hx : x ≠ 0) : |rne64 x - x| ≤ 2 ^ (binade x - 53) := by
  obtain ⟨m, -, -, near, -, heq⟩ := rne64_spec hx
  have hul : (0 : ℚ) < 2 ^ (binade x - 52) := by positivity
  have hsign : |(x.num.sign : ℚ)| = 1 := by
    rw [← Int.cast_abs, Int.abs_sign_of_ne_zero (Rat.num_ne_zero.2 hx), Int.cast_one]
  calc |rne64 x - x| = |(x.num.sign : ℚ) * ((m - |x| / 2 ^ (binade x - 52)) * 2 ^ (binade x - 52))| := by
        rw [sub_mul, div_mul_cancel₀ _ hul.ne', mul_sub, sign_num_mul_abs, heq, mul_assoc]
    _ = |(m : ℚ) - |x| / 2 ^ (binade x - 52)| * 2 ^ (binade x - 52) := by
        rw [abs_mul, hsign, one_mul, abs_mul, abs_of_pos hul]
    _ ≤ 1 / 2 * 2 ^ (binade x - 52) := mul_le_mul_of_nonneg_right near hul.le
    _ = 2 ^ (binade x - 53) := by
        rw [show binade x - 52 = binade x - 53 + 1 by ring, zpow_add_one₀ two_ne_zero]; ring

theorem rne64_nonneg {x : ℚ} (hx : 0 ≤ x) : 0 ≤ rne64 x := by
  obtain rfl | hpos := hx.eq_or_lt
  · exact rne64_zero.ge
  · obtain ⟨m, hm, -, -, -, heq⟩ := rne64_spec hpos.ne'
    have hm' : (0 : ℚ) ≤ m := by exact_mod_cast (show (0 : ℤ) ≤ 2 ^ 52 by positivity).trans hm
    rw [heq, Int.sign_eq_one_of_pos (Rat.num_pos.2 hpos)]
    positivity

theorem isBinary64_zero : IsBinary64 0 := ⟨0, 0, by norm_num⟩

/-- `RNE64` answers a binary64 value for every value in range, one whose significand rounds up to `2^53` included. -/
theorem isBinary64_rne64 {x : ℚ} (hx : x ≠ 0) (hlow : -1022 ≤ binade x) (hhigh : binade x ≤ 1022) :
    IsBinary64 (rne64 x) := by
  obtain ⟨m, hm, hm', -, -, heq⟩ := rne64_spec hx
  have hsign : |x.num.sign| = 1 := Int.abs_sign_of_ne_zero (Rat.num_ne_zero.2 hx)
  obtain hlt | rfl := hm'.lt_or_eq
  · refine ⟨x.num.sign * m, binade x - 52, ?_, by omega, by omega, by rw [heq]; push_cast; rfl⟩
    rw [abs_mul, hsign, one_mul, abs_of_nonneg (by omega)]
    exact hlt
  · refine ⟨x.num.sign * 2 ^ 52, binade x - 51, ?_, by omega, by omega, ?_⟩
    · rw [abs_mul, hsign]; norm_num
    · rw [heq, show binade x - 51 = binade x - 52 + 1 by ring, zpow_add_one₀ two_ne_zero]
      push_cast; ring

/-- The sample of a draw is a binary64 value in `[0, 1)` (R142, R143): the quotient keeps `1/M31` below 1, and rounding
moves it by far less. -/
theorem sampleOf_spec {q : ℤ} (hq : 0 ≤ q) (hlt : q < m31) :
    0 ≤ sampleOf q ∧ sampleOf q < 1 ∧ IsBinary64 (sampleOf q) := by
  have hm : sampleOf q = rne64 (q / 2147483647) := by rw [sampleOf, Rat.mkRat_eq_div]; rfl
  rw [hm]
  obtain rfl | hpos := hq.eq_or_lt
  · simp [isBinary64_zero]
  have hone : (1 : ℚ) ≤ q := by exact_mod_cast hpos
  have hmax : (q : ℚ) ≤ 2147483646 := by exact_mod_cast Int.le_sub_one_of_lt hlt
  have hx : (0 : ℚ) < q / 2147483647 := by positivity
  have hlow : -31 ≤ binade ((q : ℚ) / 2147483647) := by
    rw [le_binade_iff hx.ne', abs_of_pos hx]
    norm_num
    linarith
  have hhigh : binade ((q : ℚ) / 2147483647) < 0 := by
    rw [← not_le, le_binade_iff hx.ne', abs_of_pos hx, zpow_zero, not_le]
    linarith
  have hmove : |rne64 ((q : ℚ) / 2147483647) - q / 2147483647| ≤ 2 ^ (-54 : ℤ) :=
    (abs_rne64_sub_le hx.ne').trans (zpow_le_zpow_right₀ one_le_two (by omega))
  refine ⟨rne64_nonneg hx.le, ?_, isBinary64_rne64 hx.ne' (by omega) (by omega)⟩
  have hup := (abs_le.1 hmove).2
  norm_num at hup
  linarith

/-- The residue of a draw lies in `[0, M31)` (R142). -/
theorem drawResidue_range (out : Word32) : 0 ≤ drawResidue out ∧ drawResidue out < m31 :=
  ⟨Int.emod_nonneg _ (by decide), Int.emod_lt_of_pos _ (by decide)⟩

end Sys2Proof.Machine
end

section
/-! PROOFS. What each command answers, in native arithmetic and in the form of R65, and which buses it reads; what a
second performance finds. -/

namespace Sys2Proof.Machine

theorem exec_mul64 (s : State) : exec .mul64 s = .next (s.respond (s.req.a * s.req.b)) := by
  rw [← mul64_eq_mul]; rfl

theorem exec_add64 (n : Imm16) (s : State) : exec (.add64 n) s = .next (s.respond (s.req.a + n.setWidth 64)) := by
  rw [← BitVec.ofNat_toNat, ← add64_eq_add]; rfl

theorem exec_shr64_of_lt {n : Byte} (hn : n.toNat < 64) (s : State) :
    exec (.shr64 n) s = .next (s.respond (s.req.a >>> n.toNat)) := by
  rw [exec_shr64, if_neg (not_le.2 hn), shr64_eq_ushiftRight _ hn]

/-- The layout of `STATUS` as a number, for each of the 32 pairs of `CAUSE` and `FAULT` (R22). -/
theorem statusWord_eq_ofNat : ∀ (cause : Code) (fault : Bool),
    ((cause ++ (0 : BitVec 3)) ++ BitVec.ofBool fault).setWidth 64 =
      BitVec.ofNat 64 (16 * cause.toNat + fault.toNat) := by
  decide

theorem status_eq_ofNat (s : State) : s.status = BitVec.ofNat 64 (16 * s.CAUSE.toNat + s.FAULT.toNat) :=
  statusWord_eq_ofNat s.CAUSE s.FAULT

theorem exec_rdstat (s : State) :
    exec .rdstat s = .next (s.respond (BitVec.ofNat 64 (16 * s.CAUSE.toNat + s.FAULT.toNat))) := by
  rw [← status_eq_ofNat]; rfl

/-- The low half of a sign-extended 32-bit field is the field (R10). -/
theorem setWidth_sext64 (out : Word32) : (sext64 out).setWidth 32 = out := by
  apply BitVec.eq_of_getLsbD_eq
  intro k hk
  have hk' : k < 64 := by omega
  rw [BitVec.getLsbD_setWidth, sext64, BitVec.getLsbD_signExtend]
  simp [hk, hk']

/-- A sign-extended 32-bit field is the sign extension of its own low half, the form of R65 for a 32-bit result. -/
theorem sext64_eq_signExtend_low (out : Word32) : sext64 out = ((sext64 out).setWidth 32).signExtend 64 := by
  rw [setWidth_sext64, sext64]

/-- The form that R65 gives to the `RESULT` of each command. -/
def ResultForm (s : State) (v : Word64) : Instr → Prop
  | .mul64 => v = s.req.a * s.req.b
  | .add64 n => v = s.req.a + n.setWidth 64
  | .shr64 n => v = s.req.a >>> n.toNat
  | .seed => v = 0
  | .next32 => v = (v.setWidth 32).signExtend 64
  | .samplef => ∃ f : ℚ, 0 ≤ f ∧ f < 1 ∧ IsBinary64 f ∧ v = bits64 f
  | .sample1 => v = (v.setWidth 32).signExtend 64
  | .sample2 => v = (v.setWidth 32).signExtend 64
  | .rdstat => v = BitVec.ofNat 64 (16 * s.CAUSE.toNat + s.FAULT.toNat)

/-- A well-formed command responds with a result in its form. -/
theorem exec_resultForm {i : Instr} (hwf : i.wellFormed = true) (s : State) :
    ∃ t v, exec i s = .next t ∧ t.resp = some { rcode := 0, result := v } ∧ ResultForm s v i := by
  cases i with
  | mul64 => exact ⟨_, _, exec_mul64 s, rfl, rfl⟩
  | add64 n => exact ⟨_, _, exec_add64 n s, rfl, rfl⟩
  | shr64 n => exact ⟨_, _, exec_shr64_of_lt (of_decide_eq_true hwf) s, rfl, rfl⟩
  | seed => exact ⟨_, _, rfl, rfl, rfl⟩
  | next32 => exact ⟨_, _, rfl, rfl, sext64_eq_signExtend_low _⟩
  | sample1 => exact ⟨_, _, rfl, rfl, sext64_eq_signExtend_low _⟩
  | sample2 => exact ⟨_, _, rfl, rfl, sext64_eq_signExtend_low _⟩
  | samplef =>
    obtain ⟨hlow, hhigh⟩ := drawResidue_range (lcgDraw s).1
    obtain ⟨hnonneg, hone, hbinary⟩ := sampleOf_spec hlow hhigh
    exact ⟨_, _, rfl, rfl, _, hnonneg, hone, hbinary, rfl⟩
  | rdstat => exact ⟨_, _, exec_rdstat s, rfl, rfl⟩

/-- The buses that R65 lists for a command hold the same values in two requests. -/
def AgreeOnBuses (r r' : Request) : Instr → Prop
  | .mul64 => r.a = r'.a ∧ r.b = r'.b
  | .add64 _ => r.a = r'.a
  | .shr64 _ => r.a = r'.a
  | .seed => r.x = r'.x
  | .sample1 => r.x = r'.x
  | .sample2 => r.x = r'.x ∧ r.y = r'.y
  | .next32 => True
  | .samplef => True
  | .rdstat => True

/-- A command reads no bus but those that R65 lists for it (R46). -/
theorem exec_ignores_unused_buses {i : Instr} {s t : State} {r' : Request} (hagree : AgreeOnBuses s.req r' i)
    (h : exec i s = .next t) : exec i { s with req := r' } = .next { t with req := r' } := by
  cases i with
  | mul64 =>
    obtain ⟨ha, hb⟩ := hagree
    cases h
    simp [exec, execMul64, ha, hb, State.respond]
  | add64 n =>
    have ha : s.req.a = r'.a := hagree
    cases h
    simp [exec, execAdd64, ha, State.respond]
  | shr64 n =>
    have ha : s.req.a = r'.a := hagree
    rw [exec_shr64] at h ⊢
    cases h
    split_ifs
    · rfl
    · simp [ha, State.respond]
  | seed =>
    have hx : s.req.x = r'.x := hagree
    cases h
    simp [exec, execSeed, hx, State.respond, State.setS]
  | next32 | samplef | rdstat => cases h; rfl
  | sample1 =>
    have hx : s.req.x = r'.x := hagree
    cases h
    simp [exec, execSample1, sampleRange, sampleR, lcgDraw, hx, State.respond, State.setS]
  | sample2 =>
    obtain ⟨hx, hy⟩ := hagree
    cases h
    simp [exec, execSample2, sampleRange, sampleR, lcgDraw, hx, hy, State.respond, State.setS]

/-- The generator has no fixed point: its multiplier and its increment are odd, so a step changes the lowest bit. -/
theorem lcgStep_ne (v : Word64) : lcgStep v ≠ v := by
  rw [lcgStep_eq]
  bv_omega

/-- A command that is no draw finds, the second time, everything that it reads as it was. -/
theorem exec_idempotent {i : Instr} {s t : State} (hdraw : i.draws = false) (h : exec i s = .next t) :
    exec i t = .next t := by
  cases i with
  | next32 | samplef | sample1 | sample2 => cases hdraw
  | shr64 n =>
    rw [exec_shr64] at h ⊢
    cases h
    split_ifs <;> rfl
  | mul64 | add64 | seed | rdstat => cases h; rfl

/-- A draw moves `S`, from every state (R50). -/
theorem exec_draw_changes_S {i : Instr} (hdraw : i.draws = true) (s : State) :
    ∃ t, exec i s = .next t ∧ t.S ≠ s.S := by
  have hseed : i ≠ .seed := by rintro rfl; cases hdraw
  obtain ⟨v, hexec⟩ := exec_of_wellFormed (Instr.wellFormed_of_draws hdraw) s
  exact ⟨_, hexec, by simp [sAfter, hseed, hdraw, lcgStep_ne]⟩

end Sys2Proof.Machine
end

section
/-! PROOFS. Host numbers as integers and as 32-bit words (R10, R56). -/

namespace Sys2Proof.Machine

theorem truncate_of_nonneg {x : ℚ} (hx : 0 ≤ x) : truncate x = ⌊x⌋ := by
  rw [truncate, ← floor_eq_intFloor, Rat.floor_def, Int.tdiv_eq_ediv_of_nonneg (Rat.num_nonneg.2 hx)]

/-- Truncation toward zero does not see the sign. -/
theorem truncate_neg (x : ℚ) : truncate (-x) = -truncate x := by
  rw [truncate, truncate, Rat.num_neg_eq_neg_num, Rat.den_neg_eq_den, Int.neg_tdiv]

theorem truncate_of_nonpos {x : ℚ} (hx : x ≤ 0) : truncate x = ⌈x⌉ := by
  rw [← neg_inj, ← truncate_neg, truncate_of_nonneg (neg_nonneg.2 hx), Int.floor_neg]

/-- The unsigned value of a wrapped integer (R10). -/
theorem wrap32_toNat (i : ℤ) : ((wrap32 i).toNat : ℤ) = i % 2 ^ 32 := by
  rw [wrap32, BitVec.toNat_ofInt]
  omega

end Sys2Proof.Machine
end

section
/-! PROOFS. The statements about the command port (spec/20_memory.md). -/

namespace Sys2Proof.Machine

/-- Settles O33: the error path answers the code of its error and 0, and a command answers code 0 and a result in its
form. -/
theorem responsesCarryACodeAndAResult : Obligations.ResponsesCarryACodeAndAResult := by
  intro s r rest hin
  match hd : decode r.cmd with
  | .error c =>
    refine ⟨_, _, step_of_error hin hd, rfl, ?_⟩
    cases c <;> simp [errorCode]
  | .command i =>
    obtain ⟨t, v, hexec, hresp, hform⟩ := exec_resultForm (wellFormed_of_decode hd) (s.take r rest)
    refine ⟨t, _, (step_of_command hin hd).trans hexec, hresp, ?_⟩
    cases i <;> simpa [ResultForm] using hform

/-- Settles O40: taking the request is the record update that the statement writes out. -/
theorem stepRunsTheDecodedCommand : Obligations.StepRunsTheDecodedCommand :=
  fun _ _ _ _ hin hd => step_of_command hin hd

/-- A request at the port is taken and answered in the one step (R43, R207). -/
theorem step_answers_request {s : State} {r : Request} {rest : List Input} (h : s.inputs = .request r :: rest) :
    ∃ t answer, step s = .next t ∧ t.inputs = rest ∧ t.req = r ∧ t.resp = some answer := by
  match hd : decode r.cmd with
  | .error c => exact ⟨_, _, step_of_error h hd, rfl, rfl, rfl⟩
  | .command i =>
    obtain ⟨v, hexec⟩ := exec_of_wellFormed (wellFormed_of_decode hd) (s.take r rest)
    exact ⟨_, _, (step_of_command h hd).trans hexec, rfl, rfl, rfl⟩

theorem step_of_no_input {s : State} (h : s.inputs = []) : step s = .next s := by
  simp only [step, stepWith, h]

/-- Settles O41, by the three kinds of next input. -/
theorem portTakesOneInputAtATime : Obligations.PortTakesOneInputAtATime := by
  intro s
  match hin : s.inputs with
  | [] => exact ⟨s, step_of_no_input hin, hin, fun _ => rfl, nofun⟩
  | .reset o :: rest => exact ⟨_, step_of_reset hin, rfl, nofun, nofun⟩
  | .request r :: rest =>
    obtain ⟨t, answer, hstep, hrest, hreq, hresp⟩ := step_answers_request hin
    refine ⟨t, hstep, hrest, nofun, ?_⟩
    rintro _ _ ⟨⟩
    exact ⟨hreq, by rw [hresp]; rfl⟩

/-- A step that answers a request puts that exchange in front of those of the rest of the run (R42). -/
theorem exchanges_of_request {s t : State} {r : Request} {rest : List Input} {answer : Response} (k : Nat)
    (hin : s.inputs = .request r :: rest) (hstep : step s = .next t) (hresp : t.resp = some answer) :
    exchanges (k + 1) s = (r, answer) :: exchanges k t := by
  simp [exchanges, hstep, hin, hresp]

/-- A request leaves one state and gets one answer, whatever requests come after it. -/
theorem step_withRequests_any (s : State) (r : Request) :
    ∃ (t : State) (answer : Response), ∀ rs, step (s.withRequests (r :: rs)) = .next (t.withRequests rs) ∧
      ∀ k, exchanges (k + 1) (s.withRequests (r :: rs)) = (r, answer) :: exchanges k (t.withRequests rs) := by
  obtain ⟨t, answer, hstep, -, -, hresp⟩ := step_answers_request (s := s.withRequests [r]) (rest := []) rfl
  refine ⟨t, answer, fun rs => ?_⟩
  obtain ⟨u, hu, -, hany⟩ :=
    commandDependsOnTheRecordAndItsRequest (s.withRequests [r]) r s.req s.resp [] (rs.map .request) rfl
  obtain rfl := Host.Outcome.next.inj (hstep.symm.trans hu)
  exact ⟨hany, fun k => exchanges_of_request k rfl hany hresp⟩

/-- Settles O42, by induction on the earlier requests: each leaves the same state with the others to come as without
them. -/
theorem earlierCommandsTakeEffectFirst : Obligations.EarlierCommandsTakeEffectFirst := by
  intro s earlier later
  induction earlier generalizing s with
  | nil => exact ⟨s.withRequests [], rfl, rfl, rfl⟩
  | cons r rs ih =>
    obtain ⟨t, answer, hany⟩ := step_withRequests_any s r
    obtain ⟨u, hrun, hrun', hexchanges⟩ := ih t
    obtain ⟨hstep, hfirst⟩ := hany rs
    obtain ⟨hstep', hfirst'⟩ := hany (rs ++ later)
    refine ⟨u, (run_of_step _ hstep).trans hrun, (run_of_step _ hstep').trans hrun', ?_⟩
    rw [List.cons_append, List.length_cons, List.length_cons, hfirst', hfirst, hexchanges, List.cons_append]

/-- Settles O44: the error path reads no bus, and a command only its own. -/
theorem unusedBusesHaveNoEffect : Obligations.UnusedBusesHaveNoEffect := by
  intro s r r' rest hin hcmd hmul hadd hshr hseed hsample1 hsample2
  have hin' : { s with inputs := .request r' :: rest }.inputs = .request r' :: rest := rfl
  match hd : decode r.cmd with
  | .error c => exact ⟨_, step_of_error hin hd, step_of_error hin' (hcmd ▸ hd)⟩
  | .command i =>
    have hagree : AgreeOnBuses r r' i := by
      cases i with
      | mul64 => exact hmul hd
      | add64 n => exact hadd n hd
      | shr64 n => exact hshr n hd
      | seed => exact hseed hd
      | sample1 => exact hsample1 hd
      | sample2 => exact hsample2 hd
      | next32 | samplef | rdstat => trivial
    obtain ⟨t, hexec⟩ := exec_answers_next i (s.take r rest)
    exact ⟨t, (step_of_command hin hd).trans hexec,
      (step_of_command hin' (hcmd ▸ hd)).trans (exec_ignores_unused_buses hagree hexec)⟩

/-- Settles O46: a command that is no draw repeats itself, and `S` is no fixed point of a draw. -/
theorem onlyDrawsAreNotIdempotent : Obligations.OnlyDrawsAreNotIdempotent := by
  refine ⟨fun i s _ hmem => ?others, fun i j s hi hj => ?draws⟩
  case others =>
    obtain ⟨t, hexec⟩ := exec_answers_next i s
    have hdraw : i.draws = false := by rwa [← Instr.draws_iff_mem, Bool.not_eq_true] at hmem
    exact ⟨t, hexec, exec_idempotent hdraw hexec⟩
  case draws =>
    obtain ⟨t, hexec, hne⟩ := exec_draw_changes_S ((Instr.draws_iff_mem i).2 hi) s
    obtain ⟨u, hexec', hne'⟩ := exec_draw_changes_S ((Instr.draws_iff_mem j).2 hj) t
    exact ⟨t, u, hexec, hexec', hne, hne'⟩

/-- Settles O50: a truncation is a floor or a ceiling, by the sign. -/
theorem coercionTruncatesThenWraps : Obligations.CoercionTruncatesThenWraps := by
  refine ⟨fun x hx => ?_, fun x hx => ?_, rfl, ?_⟩
  · rw [coerce, wrap32_toNat, truncate_of_nonneg hx]
  · rw [coerce, wrap32_toNat, truncate_of_nonpos hx]
  · have hfloor : ⌊(37 / 10 : ℚ)⌋ = 3 := by norm_num
    rw [coerce, truncate_of_nonneg (by norm_num), hfloor]
    rfl

/-- Settles O51: limbs below 65536 are the digits of their value, and any other array is refused. -/
theorem limbArraysBecomeTheirBusValue : Obligations.LimbArraysBecomeTheirBusValue := by
  refine ⟨fun l0 l1 l2 l3 h0 h1 h2 h3 => ?_, fun l => (busOfLimbs_eq_none_iff l).2⟩
  exact ⟨ofLimbs [l0, l1, l2, l3], by simp [busOfLimbs, h0, h1, h2, h3], ofLimbs_toNat h0 h1 h2 h3,
    limbs_ofLimbs h0 h1 h2 h3⟩

end Sys2Proof.Machine
end

section
/-! PROOFS. The decoder as one equivalence: a word decodes to a command exactly if that command is well formed and its
three fields are the word's (R60, R64, R68); and the words that take each of the ordered checks. -/

namespace Sys2Proof

/-- A command that uses no `SHAMT` has that field 0 (R65). -/
theorem Instr.shamtOf_eq_zero {i : Instr} (h : i.opcode ≠ 0x03) : i.shamtOf = 0 := by
  cases i with
  | shr64 n => exact absurd rfl h
  | _ => rfl

/-- A command that uses no `IMM16` has that field 0 (R65). -/
theorem Instr.imm16Of_eq_zero {i : Instr} (h : i.opcode ≠ 0x02) : i.imm16Of = 0 := by
  cases i with
  | add64 n => exact absurd rfl h
  | _ => rfl

/-- The one condition on a field is on the shift amount, which is 0 where there is none (R62). -/
theorem Instr.wellFormed_iff (i : Instr) : i.wellFormed = true ↔ i.shamtOf.toNat < 64 := by
  cases i <;> simp [Instr.wellFormed, Instr.shamtOf]

/-- The opcode map reads `SHAMT` for SHR64 alone and `IMM16` for ADD64 alone (R64). -/
theorem commandOf_eq_some_iff {op shamt : Byte} {imm16 : Imm16} {i : Instr} :
    commandOf op shamt imm16 = some i ↔
      op = i.opcode ∧ (op = 0x03 → shamt = i.shamtOf) ∧ (op = 0x02 → imm16 = i.imm16Of) := by
  constructor
  · intro h
    obtain rfl := opcode_of_commandOf h
    refine ⟨rfl, ?_⟩
    cases i with
    | add64 n => cases h; exact ⟨nofun, fun _ => rfl⟩
    | shr64 n => cases h; exact ⟨fun _ => rfl, nofun⟩
    | _ => exact ⟨nofun, nofun⟩
  · rintro ⟨rfl, hshamt, himm⟩
    cases i with
    | add64 n => rw [himm rfl]; rfl
    | shr64 n => rw [hshamt rfl]; rfl
    | _ => rfl

/-- The opcodes of R64, as numbers. -/
def definedOpcodes : List Nat := [0x01, 0x02, 0x03, 0x10, 0x11, 0x20, 0x21, 0x22, 0x30]

theorem commandOf_eq_none_iff (op shamt : Byte) (imm16 : Imm16) :
    commandOf op shamt imm16 = none ↔ op.toNat ∉ definedOpcodes := by
  unfold commandOf
  split <;> simp_all [definedOpcodes]

theorem decode_of_commandOf_none {w : Word32} (h : commandOf (opField w) (shamtField w) (imm16Field w) = none) :
    decode w = .error .illegalOpcode := by
  simp only [decode, h]

/-- The checks that a word with a defined opcode still has to pass, in their order (R68, R201). -/
theorem decode_of_commandOf_some {w : Word32} {i : Instr}
    (h : commandOf (opField w) (shamtField w) (imm16Field w) = some i) :
    decode w =
      if opField w ≠ 0x03 ∧ shamtField w ≠ 0 then .error .reservedField
      else if opField w ≠ 0x02 ∧ imm16Field w ≠ 0 then .error .reservedField
      else if opField w = 0x03 ∧ 64 ≤ (shamtField w).toNat then .error .shamtRange
      else .command i := by
  simp only [decode, h]

/-- A word decodes to a command exactly if the command is well formed and has the word's fields. -/
theorem decode_eq_command_iff {w : Word32} {i : Instr} :
    decode w = .command i ↔
      i.wellFormed = true ∧ opField w = i.opcode ∧ shamtField w = i.shamtOf ∧ imm16Field w = i.imm16Of := by
  constructor
  · intro h
    refine ⟨wellFormed_of_decode h, ?_⟩
    match hc : commandOf (opField w) (shamtField w) (imm16Field w) with
    | none => rw [decode_of_commandOf_none hc] at h; cases h
    | some j =>
      rw [decode_of_commandOf_some hc] at h
      split_ifs at h with hunusedShamt hunusedImm
      obtain rfl := Decoded.command.inj h
      obtain ⟨hop, hshamt, himm⟩ := commandOf_eq_some_iff.1 hc
      refine ⟨hop, ?_, ?_⟩
      · by_cases h3 : opField w = 0x03
        · exact hshamt h3
        · rw [Instr.shamtOf_eq_zero (hop ▸ h3)]
          exact by_contra fun hne => hunusedShamt ⟨h3, hne⟩
      · by_cases h2 : opField w = 0x02
        · exact himm h2
        · rw [Instr.imm16Of_eq_zero (hop ▸ h2)]
          exact by_contra fun hne => hunusedImm ⟨h2, hne⟩
  · rintro ⟨hwf, hop, hshamt, himm⟩
    have hrange := (Instr.wellFormed_iff i).1 hwf
    rw [decode_of_commandOf_some (commandOf_eq_some_iff.2 ⟨hop, fun _ => hshamt, fun _ => himm⟩), hop, hshamt, himm,
      if_neg fun h => h.2 (Instr.shamtOf_eq_zero h.1), if_neg fun h => h.2 (Instr.imm16Of_eq_zero h.1),
      if_neg fun h => absurd h.2 (not_le.2 hrange)]

theorem decode_encode {i : Instr} (hwf : i.wellFormed = true) : decode (encode i) = .command i :=
  decode_eq_command_iff.2 ⟨hwf, Laws.EncodedFields.fields_of_word _ _ _⟩

/-- The fields of an assembled word do not overlap (R71). -/
theorem wordOf_toNat (op shamt : Byte) (imm16 : Imm16) :
    (wordOf op shamt imm16).toNat = op.toNat + 2 ^ 8 * shamt.toNat + 2 ^ 16 * imm16.toNat := by
  obtain ⟨hop, hshamt, himm⟩ := Laws.EncodedFields.fields_of_word op shamt imm16
  have hop := opField_toNat (wordOf op shamt imm16) ▸ congrArg BitVec.toNat hop
  have hshamt := shamtField_toNat (wordOf op shamt imm16) ▸ congrArg BitVec.toNat hshamt
  have himm := imm16Field_toNat (wordOf op shamt imm16) ▸ congrArg BitVec.toNat himm
  omega

/-- The three fields cover the whole word (R60). -/
theorem wordOf_fields (w : Word32) : wordOf (opField w) (shamtField w) (imm16Field w) = w := by
  apply BitVec.eq_of_toNat_eq
  rw [wordOf_toNat, opField_toNat, shamtField_toNat, imm16Field_toNat]
  omega

theorem encode_of_decode {w : Word32} {i : Instr} (h : decode w = .command i) : encode i = w := by
  obtain ⟨-, hop, hshamt, himm⟩ := decode_eq_command_iff.1 h
  rw [encode, ← hop, ← hshamt, ← himm, wordOf_fields]

section
variable {w : Word32}

/-- A word with the fields of a well-formed command, as numbers, decodes to it (R68). -/
theorem decode_of_fieldNumbers (i : Instr) (hwf : i.wellFormed = true) (hop : w.toNat % 256 = i.opcode.toNat)
    (hshamt : w.toNat / 256 % 256 = i.shamtOf.toNat) (himm : w.toNat / 65536 = i.imm16Of.toNat) :
    decode w = .command i :=
  decode_eq_command_iff.2 ⟨hwf, BitVec.eq_of_toNat_eq ((opField_toNat w).trans hop),
    BitVec.eq_of_toNat_eq ((shamtField_toNat w).trans hshamt), BitVec.eq_of_toNat_eq ((imm16Field_toNat w).trans himm)⟩

theorem opField_eq_iff (op : Byte) : opField w = op ↔ w.toNat % 256 = op.toNat := by
  rw [← opField_toNat, BitVec.toNat_inj]

theorem shamtField_eq_zero_iff : shamtField w = 0 ↔ w.toNat / 256 % 256 = 0 := by
  rw [← shamtField_toNat, ← BitVec.toNat_inj]; rfl

theorem imm16Field_eq_zero_iff : imm16Field w = 0 ↔ w.toNat / 65536 = 0 := by
  rw [← imm16Field_toNat, ← BitVec.toNat_inj]; rfl

theorem decode_of_reservedOpcode (h : w.toNat % 256 ∉ definedOpcodes) : decode w = .error .illegalOpcode := by
  rw [← opField_toNat] at h
  exact decode_of_commandOf_none ((commandOf_eq_none_iff _ _ _).2 h)

/-- A defined opcode selects some command, whatever the other fields hold. -/
theorem commandOf_of_definedOpcode (h : w.toNat % 256 ∈ definedOpcodes) :
    ∃ i, commandOf (opField w) (shamtField w) (imm16Field w) = some i := by
  rw [← opField_toNat] at h
  exact Option.ne_none_iff_exists'.1 fun hn => (commandOf_eq_none_iff _ _ _).1 hn h

/-- A nonzero `SHAMT` under a defined opcode other than SHR64's is an error (R67). -/
theorem decode_of_unusedShamt (hdef : w.toNat % 256 ∈ definedOpcodes) (hop : w.toNat % 256 ≠ 0x03)
    (hshamt : w.toNat / 256 % 256 ≠ 0) : decode w = .error .reservedField := by
  obtain ⟨i, hi⟩ := commandOf_of_definedOpcode hdef
  rw [decode_of_commandOf_some hi, if_pos ⟨mt (opField_eq_iff _).1 hop, mt shamtField_eq_zero_iff.1 hshamt⟩]

/-- A nonzero `IMM16` under a defined opcode other than ADD64's is an error (R67). -/
theorem decode_of_unusedImm16 (hdef : w.toNat % 256 ∈ definedOpcodes) (hop : w.toNat % 256 ≠ 0x02)
    (himm : w.toNat / 65536 ≠ 0) : decode w = .error .reservedField := by
  obtain ⟨i, hi⟩ := commandOf_of_definedOpcode hdef
  rw [decode_of_commandOf_some hi, if_pos (c := opField w ≠ 0x02 ∧ imm16Field w ≠ 0)
    ⟨mt (opField_eq_iff _).1 hop, mt imm16Field_eq_zero_iff.1 himm⟩, ite_self]

/-- SHR64 by 64 or more, with its unused field 0, is an error (R62). -/
theorem decode_of_longShift (hop : w.toNat % 256 = 0x03) (himm : w.toNat / 65536 = 0)
    (hshamt : 64 ≤ w.toNat / 256 % 256) : decode w = .error .shamtRange := by
  obtain ⟨i, hi⟩ := commandOf_of_definedOpcode (w := w) (by simp [hop, definedOpcodes])
  have h3 : opField w = 0x03 := (opField_eq_iff _).2 hop
  rw [← shamtField_toNat] at hshamt
  rw [decode_of_commandOf_some hi, if_neg fun h => h.1 h3, if_neg fun h => h.2 (imm16Field_eq_zero_iff.2 himm),
    if_pos ⟨h3, hshamt⟩]

end

end Sys2Proof
end

section
/-! PROOFS. The statements about the encoding (spec/30_encoding.md) and about the words that are rejected. -/

namespace Sys2Proof.Machine

/-- Settles O2: the fields of an encoded command are the command's own. -/
theorem decodeOfEncodeIsTheCommand : Obligations.DecodeOfEncodeIsTheCommand :=
  fun _ hwf => decode_encode hwf

/-- Settles O3: the command's fields are the word's, and the fields are the whole word. -/
theorem decodedWordIsTheCommandsOnlyWord : Obligations.DecodedWordIsTheCommandsOnlyWord :=
  fun _ _ h => ⟨wellFormed_of_decode h, encode_of_decode h⟩

/-- Settles O4: each error by its check, and each command by its fields. -/
theorem everyWordDecodesByTheOrderedChecks : Obligations.EveryWordDecodesByTheOrderedChecks := by
  intro w
  refine ⟨decode_of_reservedOpcode, decode_of_unusedShamt, decode_of_unusedImm16, decode_of_longShift,
    decode_of_fieldNumbers .mul64 rfl, ?add64, ?shr64, decode_of_fieldNumbers .seed rfl,
    decode_of_fieldNumbers .next32 rfl, decode_of_fieldNumbers .samplef rfl, decode_of_fieldNumbers .sample1 rfl,
    decode_of_fieldNumbers .sample2 rfl, decode_of_fieldNumbers .rdstat rfl⟩
  case add64 =>
    intro hop hshamt
    refine decode_of_fieldNumbers (.add64 _) rfl hop hshamt ?_
    rw [Instr.imm16Of, BitVec.toNat_ofNat]
    omega
  case shr64 =>
    intro hop himm hlt
    have hn : (BitVec.ofNat 8 (w.toNat / 256 % 256)).toNat = w.toNat / 256 % 256 := by
      rw [BitVec.toNat_ofNat]; omega
    exact decode_of_fieldNumbers (.shr64 _) ((Instr.wellFormed_iff _).2 (hn.trans_lt hlt)) hop hn.symm himm

/-- Settles O5: the fields do not overlap. -/
theorem wordIsAssembledFromItsFields : Obligations.WordIsAssembledFromItsFields :=
  ⟨fun _ => wordOf_toNat _ _ _, by decide⟩

/-- Settles O31: the error that the word decodes to takes the error path. -/
theorem badWordsAreRejectedByPrecedence : Obligations.BadWordsAreRejectedByPrecedence :=
  fun _ _ _ hin =>
    ⟨fun h => step_of_error hin (decode_of_reservedOpcode h),
      fun hdef hop hshamt => step_of_error hin (decode_of_unusedShamt hdef hop hshamt),
      fun hdef hop himm => step_of_error hin (decode_of_unusedImm16 hdef hop himm),
      fun hop himm hshamt => step_of_error hin (decode_of_longShift hop himm hshamt)⟩

/-- Settles O1: nine fixed words, decoded by evaluation. -/
theorem writtenOutWordsDecode : Obligations.WrittenOutWordsDecode := by
  unfold Obligations.WrittenOutWordsDecode
  decide

end Sys2Proof.Machine
end

section
/-! PROOFS. The assembler's lines (R70): a line within its ranges assembles to the word of its command, and a word out
of its range is refused. -/

namespace Sys2Proof.Machine

theorem decode_requestOf {i : Instr} (hwf : i.wellFormed = true) (a b : Word64) (x y : ℤ) :
    decode (requestOf i a b x y).cmd = .command i :=
  decode_encode hwf

theorem inSigned32_iff (i : ℤ) : inSigned32 i = true ↔ -2 ^ 31 ≤ i ∧ i ≤ 2 ^ 31 - 1 := decide_eq_true_iff

/-- An operand in signed range is what its bus word reads as (R10). -/
theorem wrap32_toInt {i : ℤ} (h : -2 ^ 31 ≤ i ∧ i ≤ 2 ^ 31 - 1) : (wrap32 i).toInt = i := by
  obtain ⟨hlow, hhigh⟩ := h
  exact BitVec.toInt_ofInt_eq_self (by decide) hlow (by omega)

/-- An immediate that is in the range of its field is that field's value. -/
theorem toNat_ofInt_of_range {k : ℕ} {n : ℤ} (h0 : 0 ≤ n) (hlt : n < 2 ^ k) : ((BitVec.ofInt k n).toNat : ℤ) = n := by
  rw [BitVec.toNat_ofInt]
  push_cast
  rw [Int.emod_eq_of_lt h0 hlt, Int.toNat_of_nonneg h0]

theorem assemble_add64_of_range (a : Word64) {n : ℤ} (h : 0 ≤ n ∧ n ≤ 65535) :
    ∃ r m, assemble (.add64 a n) = some r ∧ decode r.cmd = .command (.add64 m) ∧ (m.toNat : ℤ) = n ∧ r.a = a :=
  ⟨_, _, if_pos h, decode_requestOf rfl a 0 0 0, toNat_ofInt_of_range h.1 (by omega), rfl⟩

theorem assemble_shr64_of_range (a : Word64) {n : ℤ} (h : 0 ≤ n ∧ n ≤ 63) :
    ∃ r m, assemble (.shr64 a n) = some r ∧ decode r.cmd = .command (.shr64 m) ∧ (m.toNat : ℤ) = n ∧ r.a = a := by
  have hn : ((BitVec.ofInt 8 n).toNat : ℤ) = n := toNat_ofInt_of_range h.1 (by omega)
  have hwf : (Instr.shr64 (BitVec.ofInt 8 n)).wellFormed = true := decide_eq_true (by omega)
  exact ⟨_, _, if_pos h, decode_requestOf hwf a 0 0 0, hn, rfl⟩

/-- SEED and SAMPLE1 take their one operand on bus `X` in the same way (R45). -/
theorem assemble_oneOperand_of_range {x : ℤ} (h : -2 ^ 31 ≤ x ∧ x ≤ 2 ^ 31 - 1) :
    (∃ r, assemble (.seed x) = some r ∧ decode r.cmd = .command .seed ∧ r.x.toInt = x) ∧
    (∃ r, assemble (.sample1 x) = some r ∧ decode r.cmd = .command .sample1 ∧ r.x.toInt = x) :=
  ⟨⟨_, if_pos ((inSigned32_iff x).2 h), decode_requestOf rfl 0 0 x 0, wrap32_toInt h⟩,
    ⟨_, if_pos ((inSigned32_iff x).2 h), decode_requestOf rfl 0 0 x 0, wrap32_toInt h⟩⟩

theorem assemble_oneOperand_of_not_range {x : ℤ} (h : x < -2 ^ 31 ∨ 2 ^ 31 - 1 < x) :
    assemble (.seed x) = none ∧ assemble (.sample1 x) = none := by
  have hx : ¬ inSigned32 x = true := by rw [inSigned32_iff]; omega
  exact ⟨if_neg hx, if_neg hx⟩

theorem inSigned32_both_iff (l u : ℤ) :
    (inSigned32 l && inSigned32 u) = true ↔ (-2 ^ 31 ≤ l ∧ l ≤ 2 ^ 31 - 1) ∧ (-2 ^ 31 ≤ u ∧ u ≤ 2 ^ 31 - 1) := by
  rw [Bool.and_eq_true, inSigned32_iff, inSigned32_iff]

theorem assemble_sample2_of_range {l u : ℤ} (hl : -2 ^ 31 ≤ l ∧ l ≤ 2 ^ 31 - 1) (hu : -2 ^ 31 ≤ u ∧ u ≤ 2 ^ 31 - 1) :
    ∃ r, assemble (.sample2 l u) = some r ∧ decode r.cmd = .command .sample2 ∧ r.x.toInt = l ∧ r.y.toInt = u :=
  ⟨_, if_pos ((inSigned32_both_iff l u).2 ⟨hl, hu⟩), decode_requestOf rfl 0 0 l u, wrap32_toInt hl, wrap32_toInt hu⟩

theorem assemble_sample2_of_not_range {l u : ℤ}
    (h : l < -2 ^ 31 ∨ 2 ^ 31 - 1 < l ∨ u < -2 ^ 31 ∨ 2 ^ 31 - 1 < u) : assemble (.sample2 l u) = none :=
  if_neg (by rw [inSigned32_both_iff]; omega)

/-- `SAMPLE` has no form with three operands or more (R70). -/
theorem assemble_sample_of_many : ∀ {l : List ℤ}, 2 < l.length → assemble (.sample l) = none
  | _ :: _ :: _ :: _, _ => rfl

/-- Settles O52, line by line. -/
theorem assembledLinesBecomeTheirRequests : Obligations.AssembledLinesBecomeTheirRequests := by
  refine ⟨fun a b => ⟨_, rfl, decode_requestOf rfl a b 0 0, rfl, rfl⟩,
    fun a n => ⟨assemble_add64_of_range a, fun h => if_neg (by omega)⟩,
    fun a n => ⟨assemble_shr64_of_range a, fun h => if_neg (by omega)⟩,
    fun x => ⟨assemble_oneOperand_of_range, assemble_oneOperand_of_not_range⟩,
    fun l u => ⟨?_, assemble_sample2_of_not_range⟩,
    ⟨_, rfl, decode_requestOf rfl 0 0 0 0⟩, ⟨_, rfl, decode_requestOf rfl 0 0 0 0⟩,
    ⟨_, rfl, decode_requestOf rfl 0 0 0 0⟩, rfl, fun _ => rfl, fun _ _ => rfl,
    fun _ => assemble_sample_of_many, fun _ _ _ _ _ => rfl⟩
  rintro ⟨hl, hl', hu, hu'⟩
  exact assemble_sample2_of_range ⟨hl, hl'⟩ ⟨hu, hu'⟩

end Sys2Proof.Machine
end

section
/-! PROOFS. The narrow datapath (R101): a 32-bit accumulator holds every intermediate of the limb product, and the rows
of the datapath are the low ends of the rows of R100. -/

namespace Sys2Proof.Machine

/-- The bound of R101 on an intermediate `t`: `(2^16 − 1)^2 + 2·(2^16 − 1) = 2^32 − 1`. -/
theorem mulAccumulate_le {ai bj pij k : Nat} (ha : ai ≤ 65535) (hb : bj ≤ 65535) (hp : pij ≤ 65535)
    (hk : k ≤ 65535) : ai * bj + pij + k ≤ 2 ^ 32 - 1 := by
  have hmul : ai * bj ≤ 65535 * 65535 := Nat.mul_le_mul ha hb
  omega

/-- The accumulator of the datapath never wraps. -/
theorem datapathAccumulator_toNat (ai bj pij k : BitVec 16) :
    (ai.setWidth 32 * bj.setWidth 32 + pij.setWidth 32 + k.setWidth 32).toNat =
      ai.toNat * bj.toNat + pij.toNat + k.toNat := by
  have hle (x : BitVec 16) : x.toNat ≤ 65535 := Nat.le_of_lt_succ x.isLt
  have hbound := mulAccumulate_le (hle ai) (hle bj) (hle pij) (hle k)
  simp only [BitVec.toNat_add, BitVec.toNat_mul, BitVec.toNat_setWidth_of_le (show 16 ≤ 32 by decide)]
  omega

/-- The digit and the carry that the datapath takes from its accumulator are the remainder and the quotient of R100. -/
theorem accumulatorHalves_toNat (t : BitVec 32) :
    (t.extractLsb' 0 16).toNat = t.toNat % 65536 ∧ (t.extractLsb' 16 16).toNat = t.toNat / 65536 := by
  have ht := t.isLt
  rw [BitVec.extractLsb'_toNat, BitVec.extractLsb'_toNat, Nat.shiftRight_eq_div_pow, Nat.shiftRight_eq_div_pow]
  omega

/-- A row of the datapath is the low end of the row of R100, if its window is the low end of that row's window. -/
theorem datapathRow_isPrefix_mulRow (bj : BitVec 16) (as ps : List (BitVec 16)) (k : BitVec 16) {window : List Nat}
    (hwindow : ps.map BitVec.toNat <+: window) :
    (datapathRow bj as ps k).map BitVec.toNat <+: mulRow bj.toNat (as.map BitVec.toNat) window k.toNat := by
  induction as generalizing ps k window with
  | nil => exact List.nil_prefix
  | cons ai as ih =>
    match ps, window with
    | [], _ => exact List.nil_prefix
    | p :: ps, [] => cases List.eq_nil_of_prefix_nil hwindow
    | p :: ps, q :: qs =>
      obtain ⟨rfl, hqs⟩ := List.cons_prefix_cons.1 hwindow
      obtain ⟨hdigit, hcarry⟩ :=
        accumulatorHalves_toNat (ai.setWidth 32 * bj.setWidth 32 + p.setWidth 32 + k.setWidth 32)
      rw [datapathAccumulator_toNat] at hdigit hcarry
      rw [datapathRow, List.map_cons, List.map_cons, mulRow, List.cons_prefix_cons]
      exact ⟨hdigit, hcarry ▸ ih ps _ hqs⟩

/-- The rows of the datapath are the low end of the product of R100: each row only reads the low end of the one before
it. -/
theorem datapathRows_isPrefix_mulRows (as bs ps : List (BitVec 16)) {window : List Nat}
    (hwindow : ps.map BitVec.toNat <+: window) :
    (datapathRows as bs ps).map BitVec.toNat <+:
      mulRows (as.map BitVec.toNat) (bs.map BitVec.toNat) window := by
  induction bs generalizing ps window with
  | nil => exact List.nil_prefix
  | cons bj bs ih =>
    have hrow : (datapathRow bj as ps 0).map BitVec.toNat <+: mulRow bj.toNat (as.map BitVec.toNat) window 0 :=
      datapathRow_isPrefix_mulRow bj as ps 0 hwindow
    rw [datapathRows, List.map_cons, mulRows]
    match hd : datapathRow bj as ps 0, hm : mulRow bj.toNat (as.map BitVec.toNat) window 0 with
    | [], _ => exact List.nil_prefix
    | lo :: rest, [] => rw [hd, hm] at hrow; cases List.eq_nil_of_prefix_nil hrow
    | lo :: rest, lo' :: rest' =>
      rw [hd, hm, List.map_cons, List.cons_prefix_cons] at hrow
      obtain ⟨hlo, hrest⟩ := hrow
      exact List.cons_prefix_cons.2 ⟨hlo, ih rest hrest⟩

theorem map_toNat_limbFields (w : Word64) : (limbFields w).map BitVec.toNat = limbs w := rfl

/-- A field below others is the lowest digit of their value (R9). -/
theorem append_field_toNat {k : Nat} (x : BitVec k) (p : BitVec 16) :
    (x ++ p).toNat = p.toNat + 65536 * x.toNat := by
  rw [BitVec.toNat_append, ← Nat.shiftLeft_add_eq_or_of_lt p.isLt, Nat.shiftLeft_eq]
  omega

/-- Four 16-bit fields side by side are the Word64 of those limbs, and limbs above them are discarded (R9). -/
theorem ofLimbs_fields (p0 p1 p2 p3 : BitVec 16) (high : List Nat) :
    ofLimbs ([p0, p1, p2, p3].map BitVec.toNat ++ high) = p3 ++ p2 ++ p1 ++ p0 := by
  have htake : ([p0, p1, p2, p3].map BitVec.toNat ++ high).take 4 = [p0, p1, p2, p3].map BitVec.toNat := rfl
  apply BitVec.eq_of_toNat_eq
  rw [ofLimbs, htake, BitVec.toNat_ofNat]
  simp only [List.map_cons, List.map_nil, limbValue_cons, limbValue_nil, append_field_toNat]
  omega

/-- The datapath of R101 computes the limb product. -/
theorem mul64Datapath_eq_mul64 (a b : Word64) : mul64Datapath a b = mul64 a b := by
  obtain ⟨p0, p1, p2, p3, hrows⟩ : ∃ p0 p1 p2 p3,
      datapathRows (limbFields a) (limbFields b) [0, 0, 0, 0] = [p0, p1, p2, p3] := ⟨_, _, _, _, rfl⟩
  have hlow :=
    datapathRows_isPrefix_mulRows (limbFields a) (limbFields b) [0, 0, 0, 0] (window := [0, 0, 0, 0]) ⟨[], rfl⟩
  rw [map_toNat_limbFields, map_toNat_limbFields, hrows] at hlow
  obtain ⟨high, hmul⟩ := hlow
  rw [mul64, ← hmul, ofLimbs_fields, mul64Datapath, hrows]

end Sys2Proof.Machine
end

section
/-! PROOFS. The words of a command as numbers (R71), and the words that share an opcode with a command that uses no
other field. -/

namespace Sys2Proof

/-- A command that uses neither `SHAMT` nor `IMM16` has one word, its opcode; any other word with that opcode has a
nonzero unused field (R65, R67). -/
theorem decode_of_ne_opcodeWord {op : Nat} {w : Word32} (hdef : op ∈ definedOpcodes) (h2 : op ≠ 0x02)
    (h3 : op ≠ 0x03) (hop : w.toNat % 256 = op) (hne : w ≠ BitVec.ofNat 32 op) :
    decode w = .error .reservedField := by
  subst hop
  by_cases hshamt : w.toNat / 256 % 256 = 0
  · refine decode_of_unusedImm16 hdef h2 fun himm => hne (BitVec.eq_of_toNat_eq ?_)
    rw [BitVec.toNat_ofNat]
    omega
  · exact decode_of_unusedShamt hdef h3 hshamt

/-- A number that is put together from a well-formed command's fields is a word of that command (R71). -/
theorem decode_of_wordNumber {i : Instr} (hwf : i.wellFormed = true) {n : Nat}
    (hn : n = i.opcode.toNat + 2 ^ 8 * i.shamtOf.toNat + 2 ^ 16 * i.imm16Of.toNat) :
    decode (BitVec.ofNat 32 n) = .command i := by
  rw [hn, ← wordOf_toNat, BitVec.ofNat_toNat, BitVec.setWidth_eq]
  exact decode_encode hwf

/-- The word that R104 gives for an addend in range. -/
theorem decode_add64Word {n : Nat} (hn : n ≤ 65535) :
    decode (BitVec.ofNat 32 (n * 2 ^ 16 + 0x02)) = .command (.add64 (BitVec.ofNat 16 n)) := by
  have himm : (BitVec.ofNat 16 n).toNat = n := Nat.mod_eq_of_lt (by omega)
  refine decode_of_wordNumber rfl ?_
  change n * 2 ^ 16 + 2 = 2 + 2 ^ 8 * 0 + 2 ^ 16 * (BitVec.ofNat 16 n).toNat
  omega

/-- The word that R106 gives for a shift amount in range. -/
theorem decode_shr64Word {n : Nat} (hn : n ≤ 63) :
    decode (BitVec.ofNat 32 (n * 2 ^ 8 + 0x03)) = .command (.shr64 (BitVec.ofNat 8 n)) := by
  have hshamt : (BitVec.ofNat 8 n).toNat = n := Nat.mod_eq_of_lt (by omega)
  refine decode_of_wordNumber ((Instr.wellFormed_iff _).2 (hshamt.trans_lt (by omega))) ?_
  change n * 2 ^ 8 + 3 = 3 + 2 ^ 8 * (BitVec.ofNat 8 n).toNat + 2 ^ 16 * 0
  omega

end Sys2Proof
end

section
/-! PROOFS. The statements about the Word64 arithmetic unit (spec/40_arith.md). -/

namespace Sys2Proof.Machine

/-- Settles O6: the limb product is the native one. -/
theorem limbProductIsExactModulo2Pow64 : Obligations.LimbProductIsExactModulo2Pow64 :=
  fun a b => by rw [mul64_eq_mul, BitVec.toNat_mul]

/-- Settles O7: the accumulator does not wrap, and the datapath's rows are the low end of the full product. -/
theorem narrowDatapathComputesTheLimbProduct : Obligations.NarrowDatapathComputesTheLimbProduct :=
  ⟨fun _ _ _ _ => mulAccumulate_le, mul64Datapath_eq_mul64⟩

/-- Settles O8: the limb sum is the native one. -/
theorem limbSumIsExactModulo2Pow64 : Obligations.LimbSumIsExactModulo2Pow64 :=
  fun a n => by rw [add64_eq_add, BitVec.toNat_add, BitVec.toNat_ofNat, Nat.add_mod_mod]

/-- Settles O9: the limb shift is the native one, which divides. -/
theorem limbShiftIsTheFlooredQuotient : Obligations.LimbShiftIsTheFlooredQuotient :=
  fun a n hn => by
    rw [shr64_eq_ushiftRight a (Nat.lt_succ_of_le hn), BitVec.toNat_ushiftRight, Nat.shiftRight_eq_div_pow]

/-- Settles O10: reading an operand as signed changes it by a multiple of `2^64`. -/
theorem productIsTheSameReadAsSigned : Obligations.ProductIsTheSameReadAsSigned :=
  fun a b => by rw [mul64_eq_mul, BitVec.ofInt_mul, BitVec.ofInt_toInt, BitVec.ofInt_toInt]

/-- Settles O11, by the native product and the decoder's checks. -/
theorem mul64AnswersTheProduct : Obligations.Mul64AnswersTheProduct :=
  ⟨exec_mul64, by decide, fun _ => decode_of_ne_opcodeWord (by decide) (by decide) (by decide)⟩

/-- Settles O12, by the native sum, the fields of the word and the check of `SHAMT`. -/
theorem add64AnswersTheSum : Obligations.Add64AnswersTheSum :=
  ⟨fun s n => exec_add64 n s, fun _ => decode_add64Word,
    fun w hop => decode_of_unusedShamt (by simp [hop, definedOpcodes]) (by simp [hop])⟩

/-- Settles O13, on both sides of the range check, by the native shift, the fields of the word and the decoder's
checks. -/
theorem shr64AnswersTheShift : Obligations.Shr64AnswersTheShift := by
  refine ⟨fun s n hn => exec_shr64_of_lt (Nat.lt_succ_of_le hn) s, ?rejected, fun _ => decode_shr64Word, ?unused,
    fun _ => decode_of_longShift⟩
  case rejected =>
    intro s n hn
    rw [exec_shr64, if_pos hn]
    rfl
  case unused =>
    intro w hop
    exact decode_of_unusedImm16 (by simp [hop, definedOpcodes]) (by simp [hop])

end Sys2Proof.Machine
end

section
/-! PROOFS. The generator in native arithmetic: the seed state of SEED (R121), and the output of a draw (R122, R123). -/

namespace Sys2Proof.Machine

/-- An integer wrapped to 32 bits and zero-extended is its residue mod `2^32` (R10). -/
theorem zext64_wrap32 (i : ℤ) : zext64 (wrap32 i) = BitVec.ofInt 64 (i % 2 ^ 32) := by
  have hwrap := wrap32_toNat i
  apply BitVec.eq_of_toNat_eq
  rw [zext64, BitVec.toNat_setWidth, BitVec.toNat_ofInt]
  omega

/-- SEED loads the operand less 1 and answers 0 (R121). -/
theorem exec_seed (s : State) :
    exec .seed s = .next ((s.setS (BitVec.ofInt 64 ((s.req.x.toInt - 1) % 2 ^ 32))).respond 0) := by
  rw [← zext64_wrap32]; rfl

/-- Distinct 32-bit operands have distinct seed states (R121). -/
theorem seedState_inj {x x' : Word32}
    (h : BitVec.ofInt 64 ((x.toInt - 1) % 2 ^ 32) = BitVec.ofInt 64 ((x'.toInt - 1) % 2 ^ 32)) : x = x' := by
  have hnat := congrArg BitVec.toNat h
  rw [BitVec.toNat_ofInt, BitVec.toNat_ofInt] at hnat
  have hlow := BitVec.le_toInt x
  have hhigh := BitVec.toInt_lt (x := x)
  have hlow' := BitVec.le_toInt x'
  have hhigh' := BitVec.toInt_lt (x := x')
  apply BitVec.eq_of_toInt_eq
  omega

/-- Limbs 1 and 0, put side by side, are the low half of the value. -/
theorem lowLimbs_eq (w : Word64) : (limb w 1 <<< 16 ||| limb w 0) = w.toNat % 2 ^ 32 := by
  rw [← Nat.shiftLeft_add_eq_or_of_lt (limb_lt w 0), limb_eq, limb_eq]
  omega

/-- A draw's output is the quotient of the new state by `2^33` (R122). -/
theorem drawOutput_toNat (v : Word64) : (drawOutput v).toNat = v.toNat / 2 ^ 33 := by
  have hv := v.isLt
  have hwrap := wrap32_toNat ((v >>> 33).toNat % 2 ^ 32 : ℕ)
  rw [BitVec.toNat_ushiftRight, Nat.shiftRight_eq_div_pow] at hwrap
  simp only [drawOutput, outShift, shr64_eq_ushiftRight v (show 33 < 64 by decide), lowLimbs_eq,
    BitVec.toNat_ushiftRight, Nat.shiftRight_eq_div_pow]
  omega

/-- A draw's output has 31 bits (R124). -/
theorem drawOutput_lt (v : Word64) : (drawOutput v).toNat < 2 ^ 31 := by
  have hv := v.isLt
  rw [drawOutput_toNat]
  omega

theorem drawOutput_msb (v : Word64) : (drawOutput v).msb = false := by
  have hlt := drawOutput_lt v
  exact BitVec.msb_eq_false_iff_two_mul_lt.2 (by omega)

/-- A draw's output has no sign bit, so extending it to 64 bits adds zeros (R123, R124). -/
theorem sext64_drawOutput (v : Word64) : sext64 (drawOutput v) = v >>> 33 := by
  apply BitVec.eq_of_toNat_eq
  rw [sext64, BitVec.signExtend_eq_setWidth_of_msb_false (drawOutput_msb v), BitVec.toNat_setWidth_of_le (by decide),
    drawOutput_toNat, BitVec.toNat_ushiftRight, Nat.shiftRight_eq_div_pow]

/-- A draw's output is bits 63:33 of the new state (R124). -/
theorem drawOutput_eq_extract (v : Word64) : drawOutput v = (v.extractLsb' 33 31).setWidth 32 := by
  have hv := v.isLt
  apply BitVec.eq_of_toNat_eq
  rw [drawOutput_toNat, BitVec.toNat_setWidth_of_le (by decide), BitVec.extractLsb'_toNat,
    Nat.shiftRight_eq_div_pow]
  omega

theorem drawOutput_toInt_nonneg (v : Word64) : 0 ≤ (drawOutput v).toInt := by
  rw [BitVec.toInt_eq_toNat_of_msb (drawOutput_msb v)]
  exact Int.natCast_nonneg _

/-- The `2^33` states at the top have the largest output (R124). -/
theorem drawOutput_eq_largest_iff (v : Word64) : drawOutput v = 0x7FFFFFFF ↔ 0xFFFFFFFE00000000 ≤ v.toNat := by
  have hv := v.isLt
  rw [← BitVec.toNat_inj, drawOutput_toNat, show (0x7FFFFFFF : Word32).toNat = 0x7FFFFFFF by rfl]
  omega

/-- The generator's step on numbers (R120, R122). -/
theorem lcgStep_toNat (v : Word64) : (lcgStep v).toNat = (v.toNat * 6364136223846793005 + 1) % 2 ^ 64 := by
  rw [lcgStep_eq, BitVec.toNat_add, BitVec.toNat_mul, Nat.mod_add_mod]
  simp only [BitVec.reduceToNat]

/-- NEXT32 steps `S` and answers the high bits of the new state (R123). -/
theorem exec_next32 (s : State) :
    exec .next32 s = .next ((s.setS (lcgStep s.S)).respond (lcgStep s.S >>> 33)) := by
  rw [← sext64_drawOutput]; rfl

end Sys2Proof.Machine
end

section
/-! PROOFS. What a list of requests does to `S`, and what a draw's answer depends on. -/

namespace Sys2Proof.Machine

theorem seeds_iff (r : Request) : r.seeds = true ↔ decode r.cmd = .command .seed := decide_eq_true_iff

theorem draws_of_command {r : Request} {i : Instr} (hd : decode r.cmd = .command i) : r.draws = i.draws := by
  rw [Request.draws, hd]

theorem draws_of_error {r : Request} {c : ErrorCode} (hd : decode r.cmd = .error c) : r.draws = false := by
  rw [Request.draws, hd]

/-- A request that draws is for a draw command: a rejected one makes no draw (R126, R202). -/
theorem command_of_draws {r : Request} (h : r.draws = true) :
    ∃ i, decode r.cmd = .command i ∧ i.draws = true := by
  match hd : decode r.cmd with
  | .error c => rw [draws_of_error hd] at h; cases h
  | .command i => exact ⟨i, rfl, (draws_of_command hd).symm.trans h⟩

/-- A SEED request at the port is performed: the step leaves the inputs after it and the seed state, and answers 0
(R121). -/
theorem step_of_seeds {s : State} {r : Request} {rest : List Input} (hin : s.inputs = .request r :: rest)
    (hseed : r.seeds = true) :
    ∃ t, step s = .next t ∧ t.inputs = rest ∧ t.S = BitVec.ofInt 64 ((r.x.toInt - 1) % 2 ^ 32) ∧
      t.resp = some { rcode := 0, result := 0 } :=
  ⟨_, (step_of_command hin ((seeds_iff r).1 hseed)).trans (exec_seed _), rfl, rfl, rfl⟩

/-- What a command other than SEED leaves in `S`, performed or rejected: a draw steps it once (R126). -/
theorem exec_S {i : Instr} {s t : State} (hexec : exec i s = .next t) (hseed : i ≠ .seed) :
    t.S = if i.draws then lcgStep s.S else s.S := by
  obtain ⟨hill, h⟩ | ⟨-, v, h⟩ := exec_shape i s
  · have hdraw : i.draws = false := by
      rw [Bool.eq_false_iff]
      intro hdraw
      rw [Instr.wellFormed_of_draws hdraw] at hill
      cases hill
    obtain rfl := Host.Outcome.next.inj (h.symm.trans hexec)
    simp [hdraw]
  · obtain rfl := Host.Outcome.next.inj (h.symm.trans hexec)
    simp [sAfter, hseed]

/-- A request other than a SEED: the step leaves the inputs after it, and `S` is stepped if the request draws. -/
theorem step_of_request_S {s : State} {r : Request} {rest : List Input} (hin : s.inputs = .request r :: rest)
    (hseed : r.seeds = false) :
    ∃ t, step s = .next t ∧ t.inputs = rest ∧ t.S = if r.draws then lcgStep s.S else s.S := by
  match hd : decode r.cmd with
  | .error c => exact ⟨_, step_of_error hin hd, rfl, by simp [draws_of_error hd]⟩
  | .command i =>
    have hne : i ≠ .seed := by
      rintro rfl
      rw [(seeds_iff r).2 hd] at hseed
      cases hseed
    obtain ⟨v, hexec⟩ := exec_of_wellFormed (wellFormed_of_decode hd) (s.take r rest)
    refine ⟨_, (step_of_command hin hd).trans hexec, rfl, ?_⟩
    rw [draws_of_command hd, exec_S hexec hne, State.take_S]

/-- Requests without a SEED step `S` once for each draw among them (R126). -/
theorem run_of_requests_S {rs : List Request} (hseeds : ∀ r ∈ rs, r.seeds = false) {s : State}
    (hin : s.inputs = rs.map .request) :
    ∃ t, run rs.length s = .next t ∧ t.S = lcgStep^[(rs.filter Request.draws).length] s.S := by
  induction rs generalizing s with
  | nil => exact ⟨s, rfl, by simp⟩
  | cons r rs ih =>
    obtain ⟨hr, hrs⟩ := List.forall_mem_cons.1 hseeds
    obtain ⟨t, hstep, hrest, hS⟩ := step_of_request_S hin hr
    obtain ⟨u, hrun, hS'⟩ := ih hrs hrest
    refine ⟨u, (run_of_step _ hstep).trans hrun, ?_⟩
    rw [hS', hS, List.filter_cons]
    split_ifs
    · rw [List.length_cons, Function.iterate_succ_apply]
    · rfl

/-- A draw reads nothing but `S` and its request: two states that agree on both leave the same `S` and answer the same
(R125). -/
theorem exec_draw_of_agree {i : Instr} (hdraw : i.draws = true) {s s' : State} (hS : s.S = s'.S)
    (hreq : s.req = s'.req) :
    ∃ v, exec i s = .next ((s.setS (lcgStep s.S)).respond v) ∧
      exec i s' = .next ((s'.setS (lcgStep s.S)).respond v) := by
  obtain ⟨S, fault, cause, req, resp, inputs⟩ := s
  obtain ⟨S', fault', cause', req', resp', inputs'⟩ := s'
  obtain rfl : S = S' := hS
  obtain rfl : req = req' := hreq
  cases i with
  | next32 | samplef | sample1 | sample2 => exact ⟨_, rfl, rfl⟩
  | mul64 | add64 | shr64 | seed | rdstat => cases hdraw

/-- Two runs of the same length both complete, leave the same `S` and deliver the same responses (R125). -/
def RunsAgree (k : Nat) (s s' : State) : Prop :=
  ∃ t t', run k s = .next t ∧ run k s' = .next t' ∧ t.S = t'.S ∧
    (exchanges k s).map Prod.snd = (exchanges k s').map Prod.snd

/-- Runs agree if their first requests get the same response and the runs agree from there on. -/
theorem runsAgree_of_step {s s' t t' : State} {r r' : Request} {rest rest' : List Input} {answer : Response} {k : Nat}
    (hin : s.inputs = .request r :: rest) (hin' : s'.inputs = .request r' :: rest') (hstep : step s = .next t)
    (hstep' : step s' = .next t') (hresp : t.resp = some answer) (hresp' : t'.resp = some answer)
    (hagree : RunsAgree k t t') : RunsAgree (k + 1) s s' := by
  obtain ⟨u, u', hrun, hrun', hS, hresponses⟩ := hagree
  refine ⟨u, u', (run_of_step k hstep).trans hrun, (run_of_step k hstep').trans hrun', hS, ?_⟩
  rw [exchanges_of_request k hin hstep hresp, exchanges_of_request k hin' hstep' hresp', List.map_cons, List.map_cons,
    hresponses]

/-- The same draws from two states with the same `S` agree, whatever else the states hold (R125). -/
theorem runsAgree_of_draws {draws : List Request} (hdraws : ∀ d ∈ draws, d.draws = true) {s s' : State}
    (hin : s.inputs = draws.map .request) (hin' : s'.inputs = draws.map .request) (hS : s.S = s'.S) :
    RunsAgree draws.length s s' := by
  induction draws generalizing s s' with
  | nil => exact ⟨s, s', rfl, rfl, hS, rfl⟩
  | cons d ds ih =>
    obtain ⟨hd, hds⟩ := List.forall_mem_cons.1 hdraws
    obtain ⟨i, hdec, hdraw⟩ := command_of_draws hd
    obtain ⟨v, hexec, hexec'⟩ :=
      exec_draw_of_agree hdraw (s := s.take d (ds.map .request)) (s' := s'.take d (ds.map .request)) hS rfl
    exact runsAgree_of_step hin hin' ((step_of_command hin hdec).trans hexec)
      ((step_of_command hin' hdec).trans hexec') rfl rfl (ih hds rfl rfl rfl)

end Sys2Proof.Machine
end

section
/-! PROOFS. The statements about the generator (spec/41_lcg.md). -/

namespace Sys2Proof.Machine

/-- Settles O14, by the seed state, which determines its operand, and the decoder's checks. -/
theorem seedLoadsTheOperandMinusOne : Obligations.SeedLoadsTheOperandMinusOne := by
  refine ⟨exec_seed, ?distinct, by decide, fun _ => decode_of_ne_opcodeWord (by decide) (by decide) (by decide)⟩
  case distinct =>
    intro s s' t t' hexec hexec'
    obtain rfl := Host.Outcome.next.inj ((exec_seed s).symm.trans hexec)
    obtain rfl := Host.Outcome.next.inj ((exec_seed s').symm.trans hexec')
    exact ⟨seedState_inj, fun hx => by simp [hx]⟩

/-- Settles O15, by the step and the output in native arithmetic; a rejection leaves `S`. -/
theorem next32StepsAndAnswersTheHighBits : Obligations.Next32StepsAndAnswersTheHighBits := by
  refine ⟨fun s => ?performed, by decide, fun s r rest hin hop hne => ?rejected⟩
  case performed => simp only [exec_next32, lcgStep_eq, State.setS, State.respond]
  case rejected =>
    have hd : decode r.cmd = .error .reservedField :=
      decode_of_ne_opcodeWord (by decide) (by decide) (by decide) hop hne
    exact ⟨hd, _, step_of_error hin hd, rfl⟩

/-- Settles O20, by the step and the output in native arithmetic. -/
theorem drawStepsTheRecurrenceOnce : Obligations.DrawStepsTheRecurrenceOnce := by
  intro s
  refine ⟨lcgStep_toNat s.S, Prod.ext ?output rfl⟩
  case output => rw [← drawOutput_toNat, BitVec.ofNat_toNat, BitVec.setWidth_eq]; rfl

/-- Settles O21: the quotient of a 64-bit state by `2^33` has 31 bits, so no sign bit, and is all ones for the top
states. -/
theorem drawOutputIsNonnegative31Bits : Obligations.DrawOutputIsNonnegative31Bits := by
  intro s
  simp only [lcgDraw, State.setS_S]
  exact ⟨drawOutput_eq_extract _, Nat.le_pred_of_lt (drawOutput_lt _),
    (BitVec.msb_eq_getLsbD_last _).symm.trans (drawOutput_msb _), drawOutput_toInt_nonneg _,
    (drawOutput_eq_largest_iff _).symm⟩

/-- Settles O22: the SEEDs leave the same `S` and answer the same, and the draws agree from there on. -/
theorem drawsAfterSeedDependOnTheSeedAlone : Obligations.DrawsAfterSeedDependOnTheSeedAlone := by
  intro s s' seed seed' draws hseed hseed' hx hdraws
  obtain ⟨t, hstep, hrest, hS, hresp⟩ := step_of_seeds (s := s.withRequests (seed :: draws)) rfl hseed
  obtain ⟨t', hstep', hrest', hS', hresp'⟩ := step_of_seeds (s := s'.withRequests (seed' :: draws)) rfl hseed'
  exact runsAgree_of_step rfl rfl hstep hstep' hresp hresp'
    (runsAgree_of_draws hdraws hrest hrest' (by rw [hS, hS', hx]))

/-- Settles O23: the seed state is what SEED leaves, and the other requests step it once for each draw. -/
theorem stateAfterSeedCountsTheDraws : Obligations.StateAfterSeedCountsTheDraws := by
  refine ⟨fun i s t hexec hseed => ?command, fun s seed rs hseed hseeds => ?run⟩
  case command => simp only [← Instr.draws_iff_mem, exec_S hexec hseed]
  case run =>
    obtain ⟨t, hstep, hrest, hS, -⟩ := step_of_seeds (s := s.withRequests (seed :: rs)) rfl hseed
    obtain ⟨u, hrun, hS'⟩ := run_of_requests_S hseeds hrest
    exact ⟨u, (run_of_step _ hstep).trans hrun, by rw [hS', hS]⟩

end Sys2Proof.Machine
end

section
/-! PROOFS. Rounding to binary64 in relative terms and on the grid of a binade (R140): how far `RNE64` moves a value,
the normal form of its result, and that its result is the one nearest binary64 value where the value is no dyadic
rational; then the layout of the encoding (R141). -/

namespace Sys2Proof.Machine

/-- `RNE64` moves a value by at most `2^-53` of its magnitude. -/
theorem abs_rne64_sub_le_mul (x : ℚ) : |rne64 x - x| ≤ |x| / 2 ^ 53 := by
  obtain rfl | hx := eq_or_ne x 0
  · simp
  · calc |rne64 x - x| ≤ 2 ^ (binade x - 53) := abs_rne64_sub_le hx
      _ = 2 ^ binade x / 2 ^ 53 := by rw [zpow_sub₀ two_ne_zero]; norm_cast
      _ ≤ |x| / 2 ^ 53 := div_le_div_of_nonneg_right (binade_spec x hx).1 (by positivity)

/-- `RNE64` of a positive value is a whole multiple of the unit in the last place of the value's binade. -/
theorem rne64_of_pos {x : ℚ} (hx : 0 < x) :
    ∃ m : ℤ, 2 ^ 52 ≤ m ∧ m ≤ 2 ^ 53 ∧ rne64 x = m * 2 ^ (binade x - 52) := by
  obtain ⟨m, hlow, hhigh, -, -, heq⟩ := rne64_spec hx.ne'
  refine ⟨m, hlow, hhigh, ?_⟩
  rw [heq, Int.sign_eq_one_of_pos (Rat.num_pos.2 hx), Int.cast_one, one_mul]

/-- The sign that R140 gives to a rounded value that is not 0. -/
theorem sign_num_eq_ite {x : ℚ} (hx : x ≠ 0) : (x.num.sign : ℚ) = if x < 0 then -1 else 1 := by
  split_ifs with hneg
  · rw [Int.sign_eq_neg_one_of_neg (Rat.num_neg.2 hneg)]; rfl
  · rw [Int.sign_eq_one_of_pos (Rat.num_pos.2 ((not_lt.1 hneg).lt_of_ne' hx))]; rfl

/-- A unit in the last place is twice the half unit. -/
theorem zpow_ulp_eq (e : ℤ) : (2 : ℚ) ^ (e - 52) = 2 * 2 ^ (e - 53) := by
  rw [show e - 52 = 1 + (e - 53) by ring, zpow_add₀ two_ne_zero, zpow_one]

/-- A binade begins at `2^52` of its units in the last place. -/
theorem zpow_eq_mul_ulp (e : ℤ) : (2 : ℚ) ^ e = 2 ^ 52 * 2 ^ (e - 52) := by
  rw [← zpow_natCast, ← zpow_add₀ two_ne_zero]
  congr 1
  push_cast
  ring

/-- A significand of 53 bits lies in its binade. -/
theorem significand_mem_binade {e m : ℤ} (hlow : 2 ^ 52 ≤ m) (hhigh : m < 2 ^ 53) :
    (2 : ℚ) ^ e ≤ m * 2 ^ (e - 52) ∧ (m : ℚ) * 2 ^ (e - 52) < 2 ^ (e + 1) := by
  have hul : (0 : ℚ) < 2 ^ (e - 52) := by positivity
  have hlow' : (2 : ℚ) ^ 52 ≤ m := by exact_mod_cast hlow
  have hhigh' : (m : ℚ) < 2 ^ 53 := by exact_mod_cast hhigh
  rw [zpow_add_one₀ two_ne_zero, zpow_eq_mul_ulp e]
  constructor <;> nlinarith

theorem binade_eq_of_mem {x : ℚ} {e : ℤ} (hlow : 2 ^ e ≤ |x|) (hhigh : |x| < 2 ^ (e + 1)) : binade x = e := by
  have hx : x ≠ 0 := abs_pos.1 (lt_of_lt_of_le (by positivity) hlow)
  refine le_antisymm (Int.lt_add_one_iff.1 ?_) ((le_binade_iff hx e).2 hlow)
  rwa [← not_le, le_binade_iff hx, not_le]

/-- The result of rounding a positive value, in the form that R141 encodes; a significand that rounds up to `2^53` is
the next binade's `2^52`. -/
theorem rne64_normalForm {x : ℚ} (hx : 0 < x) :
    ∃ e m : ℤ, 2 ^ 52 ≤ m ∧ m < 2 ^ 53 ∧ rne64 x = m * 2 ^ (e - 52) := by
  obtain ⟨m, hlow, hhigh, heq⟩ := rne64_of_pos hx
  obtain hlt | rfl := hhigh.lt_or_eq
  · exact ⟨binade x, m, hlow, hlt, heq⟩
  · refine ⟨binade x + 1, 2 ^ 52, le_rfl, by norm_num, ?_⟩
    rw [heq, show binade x + 1 - 52 = 1 + (binade x - 52) by ring, zpow_add₀ two_ne_zero]
    push_cast
    ring

section
variable {x : ℚ} (hx : 0 < x) (hdyadic : ∀ m e : ℤ, x ≠ m * 2 ^ e)
include hx hdyadic

/-- A value that is no dyadic rational is nowhere halfway, so rounding moves it by less than half a unit. -/
theorem abs_rne64_sub_lt : |rne64 x - x| < 2 ^ (binade x - 53) := by
  refine (abs_rne64_sub_le hx.ne').lt_of_ne fun hhalf => ?_
  obtain ⟨m, -, -, heq⟩ := rne64_of_pos hx
  rw [heq, zpow_ulp_eq] at hhalf
  obtain h | h := eq_or_eq_neg_of_abs_eq hhalf
  · exact hdyadic (2 * m - 1) (binade x - 53) (by push_cast; linarith)
  · exact hdyadic (2 * m + 1) (binade x - 53) (by push_cast; linarith)

/-- Of the multiples of the binade's unit in the last place, none but `RNE64` is as near. -/
theorem eq_rne64_of_multiple_near {n : ℤ} (hnear : |n * 2 ^ (binade x - 52) - x| ≤ |rne64 x - x|) :
    n * 2 ^ (binade x - 52) = rne64 x := by
  obtain ⟨m, -, -, heq⟩ := rne64_of_pos hx
  have hul : (0 : ℚ) < 2 ^ (binade x - 52) := by positivity
  have hlt := abs_rne64_sub_lt hx hdyadic
  have hclose : |((n - m : ℤ) : ℚ)| * 2 ^ (binade x - 52) < 1 * 2 ^ (binade x - 52) :=
    calc |((n - m : ℤ) : ℚ)| * 2 ^ (binade x - 52) = |n * 2 ^ (binade x - 52) - rne64 x| := by
          rw [heq, ← sub_mul, abs_mul, abs_of_pos hul, Int.cast_sub]
      _ ≤ |n * 2 ^ (binade x - 52) - x| + |rne64 x - x| := by
          rw [abs_sub_comm (rne64 x)]; exact abs_sub_le _ _ _
      _ < 1 * 2 ^ (binade x - 52) := by linarith [zpow_ulp_eq (binade x)]
  have hone : |n - m| < 1 := by exact_mod_cast lt_of_mul_lt_mul_right hclose hul.le
  rw [heq, sub_eq_zero.1 (Int.abs_lt_one_iff.1 hone)]

end

/-- Above a binade's lower end the binary64 values are multiples of that binade's unit in the last place. -/
theorem isBinary64_multiple_or_below {y : ℚ} (hy : IsBinary64 y) (e : ℤ) :
    (∃ n : ℤ, y = n * 2 ^ (e - 52)) ∨ y < 2 ^ e := by
  obtain ⟨m, b, hm, -, -, rfl⟩ := hy
  by_cases hb : e - 52 ≤ b
  · refine .inl ⟨m * 2 ^ (b - (e - 52)).toNat, ?_⟩
    have hexp : ((b - (e - 52)).toNat : ℤ) + (e - 52) = b := by omega
    push_cast
    rw [mul_assoc, ← zpow_natCast, ← zpow_add₀ two_ne_zero, hexp]
  · have hm' : (m : ℚ) < 2 ^ 53 := by exact_mod_cast (abs_lt.1 hm).2
    refine .inr ?_
    calc (m : ℚ) * 2 ^ b < 2 ^ 53 * 2 ^ b := mul_lt_mul_of_pos_right hm' (by positivity)
      _ = 2 ^ (53 + b) := by rw [← zpow_natCast, ← zpow_add₀ two_ne_zero]; rfl
      _ ≤ 2 ^ e := zpow_le_zpow_right₀ one_le_two (by omega)

/-- `RNE64` of a positive value that is no dyadic rational is the one binary64 value nearest to it (R143). -/
theorem rne64_uniqueNearest {x : ℚ} (hx : 0 < x) (hdyadic : ∀ m e : ℤ, x ≠ m * 2 ^ e) {y : ℚ} (hy : IsBinary64 y)
    (hne : y ≠ rne64 x) : |rne64 x - x| < |y - x| := by
  by_contra! hnear
  obtain ⟨n, rfl⟩ | hbelow := isBinary64_multiple_or_below hy (binade x)
  · exact hne (eq_rne64_of_multiple_near hx hdyadic hnear)
  · have hlow : (2 : ℚ) ^ binade x ≤ x := (binade_spec x hx.ne').1.trans_eq (abs_of_pos hx)
    have hcloser : |(2 : ℚ) ^ binade x - x| < |y - x| := by
      rw [abs_of_nonpos (by linarith), abs_of_neg (by linarith)]
      linarith
    have hend : (2 : ℚ) ^ binade x = ((2 ^ 52 : ℤ) : ℚ) * 2 ^ (binade x - 52) := by
      rw [zpow_eq_mul_ulp]; push_cast; rfl
    rw [hend] at hcloser
    rw [eq_rne64_of_multiple_near hx hdyadic (hcloser.le.trans hnear)] at hcloser
    exact hcloser.not_ge hnear

/-- A field below others adds to their shifted value. -/
theorem toNat_append_eq_add {k n : ℕ} (x : BitVec k) (y : BitVec n) :
    (x ++ y).toNat = 2 ^ n * x.toNat + y.toNat := by
  rw [BitVec.toNat_append, ← Nat.shiftLeft_add_eq_or_of_lt y.isLt, Nat.shiftLeft_eq, mul_comm]

/-- The three fields of the layout do not overlap (R141). -/
theorem layout_eq_ofInt (sign : Bool) {exponent fraction : ℤ} (he : 0 ≤ exponent) (he' : exponent < 2 ^ 11)
    (hf : 0 ≤ fraction) (hf' : fraction < 2 ^ 52) :
    BitVec.ofBool sign ++ BitVec.ofInt 11 exponent ++ BitVec.ofInt 52 fraction =
      BitVec.ofInt 64 (2 ^ 63 * (sign.toNat : ℤ) + exponent * 2 ^ 52 + fraction) := by
  have hexponent := toNat_ofInt_of_range he he'
  have hfraction := toNat_ofInt_of_range hf hf'
  have hsign : sign.toNat ≤ 1 := Bool.toNat_le sign
  have hsum : ((BitVec.ofInt 64 (2 ^ 63 * (sign.toNat : ℤ) + exponent * 2 ^ 52 + fraction)).toNat : ℤ) = _ :=
    toNat_ofInt_of_range (by omega) (by omega)
  apply BitVec.eq_of_toNat_eq
  rw [toNat_append_eq_add, toNat_append_eq_add, BitVec.toNat_ofBool]
  omega

/-- The encoding of a value with a normal magnitude (R141). -/
theorem bits64_of_abs_eq {f : ℚ} {e m : ℤ} (he : -1022 ≤ e) (he' : e ≤ 1023) (hm : 2 ^ 52 ≤ m) (hm' : m < 2 ^ 53)
    (habs : |f| = m * 2 ^ (e - 52)) :
    bits64 f = BitVec.ofInt 64 (2 ^ 63 * ((decide (f < 0)).toNat : ℤ) + (e + 1023) * 2 ^ 52 + (m - 2 ^ 52)) := by
  obtain ⟨hlow, hhigh⟩ := significand_mem_binade (e := e) hm hm'
  have hbinade : binade f = e := binade_eq_of_mem (hlow.trans_eq habs.symm) (habs.trans_lt hhigh)
  have hf : f ≠ 0 := abs_pos.1 (lt_of_lt_of_le (by positivity) (hlow.trans_eq habs.symm))
  have hfloor : (absRat f / pow2 (e - 52)).floor = m := by
    rw [absRat_eq_abs, habs, pow2_eq_zpow, mul_div_cancel_right₀ _ (by positivity), floor_eq_intFloor,
      Int.floor_intCast]
  simp only [bits64, if_neg hf, hbinade, hfloor]
  exact layout_eq_ofInt _ (by omega) (by omega) (by omega) (by omega)

end Sys2Proof.Machine
end

section
/-! PROOFS. The sample of a draw and its scaling (R142, R143, R145, R148, R149): the residue of a draw and the quotient
by `M31`, the bounds of the sample and its encoding, the range of a scaled sample, and the widths that need no
rounding. -/

namespace Sys2Proof.Machine

theorem prime_m31 : Nat.Prime 2147483647 :=
  lucas_lehmer_sufficiency 31 (by decide) (by norm_num)

/-- A residue mod `M31` other than 0 is no multiple of `M31`. -/
theorem m31_not_dvd {q : ℤ} (hq : 1 ≤ q) (hlt : q < 2147483647) : ¬ (2147483647 : ℤ) ∣ q :=
  fun h => absurd (Int.le_of_dvd hq h) (not_le.2 hlt)

/-- No quotient by `M31` is a dyadic rational: `M31` is an odd prime (R143). -/
theorem quotient_ne_dyadic {q : ℤ} (hq : 1 ≤ q) (hlt : q < 2147483647) (m e : ℤ) :
    (q : ℚ) / 2147483647 ≠ m * 2 ^ e := by
  intro h
  have hprime : Prime (2147483647 : ℤ) := Nat.prime_iff_prime_int.1 prime_m31
  rw [div_eq_iff (by norm_num)] at h
  obtain ⟨n, rfl | rfl⟩ := e.eq_nat_or_neg
  · have hmul : q = 2147483647 * (m * 2 ^ n) := by
      rw [mul_comm]; exact_mod_cast h
    exact m31_not_dvd hq hlt ⟨_, hmul⟩
  · have hmul : q * 2 ^ n = 2147483647 * m := by
      have : (q : ℚ) * 2 ^ n = 2147483647 * m := by rw [h, zpow_neg, zpow_natCast]; field_simp
      exact_mod_cast this
    obtain hdvd | hdvd := hprime.dvd_or_dvd ⟨m, hmul⟩
    · exact m31_not_dvd hq hlt hdvd
    · exact absurd (hprime.dvd_of_dvd_pow hdvd) (by decide)

theorem sampleOf_eq (q : ℤ) : sampleOf q = rne64 (q / 2147483647) := by
  rw [sampleOf, Rat.mkRat_eq_div]; rfl

section
variable {q : ℤ} (hq : 1 ≤ q) (hlt : q < 2147483647)
include hq

theorem quotient_pos : (0 : ℚ) < q / 2147483647 := by
  have : (0 : ℚ) < q := by exact_mod_cast hq
  positivity

/-- The smallest sample is still above `2^-31`: the quotient is by more than rounding moves it. -/
theorem sample_ge : 1 / 2 ^ 31 ≤ rne64 ((q : ℚ) / 2147483647) := by
  have hone : (1 : ℚ) ≤ q := by exact_mod_cast hq
  have hmove := (abs_le.1 (abs_rne64_sub_le_mul ((q : ℚ) / 2147483647))).1
  rw [abs_of_pos (quotient_pos hq)] at hmove
  linarith

include hlt

/-- The sample is the one binary64 value nearest to its quotient (R143). -/
theorem sample_uniqueNearest {y : ℚ} (hy : IsBinary64 y) (hne : y ≠ rne64 ((q : ℚ) / 2147483647)) :
    |rne64 ((q : ℚ) / 2147483647) - q / 2147483647| < |y - q / 2147483647| :=
  rne64_uniqueNearest (quotient_pos hq) (quotient_ne_dyadic hq hlt) hy hne

/-- The binary64 value `1 − 2^-31` lies above every quotient, so no sample lies above it. -/
theorem sample_le_of_pos : rne64 ((q : ℚ) / 2147483647) ≤ 1 - 1 / 2 ^ 31 := by
  have hmax : (q : ℚ) ≤ 2147483646 := by exact_mod_cast Int.le_sub_one_of_lt hlt
  have hbinary : IsBinary64 (1 - 1 / 2 ^ 31) := ⟨2147483647, -31, by norm_num, by norm_num, by norm_num, by norm_num⟩
  by_contra! habove
  have hnear := sample_uniqueNearest hq hlt hbinary habove.ne
  rw [abs_of_nonneg (by linarith), abs_of_nonneg (by linarith)] at hnear
  linarith

/-- The encoding of a sample other than 0 is not 0, and is at most that of `1 − 2^-31` (R144). -/
theorem bits64_sample_range :
    0 < (bits64 (rne64 ((q : ℚ) / 2147483647))).toNat ∧
      (bits64 (rne64 ((q : ℚ) / 2147483647))).toNat ≤ 0x3fefffffffc00000 := by
  have hge := sample_ge hq
  have hle := sample_le_of_pos hq hlt
  obtain ⟨e, m, hm, hm', heq⟩ := rne64_normalForm (quotient_pos hq)
  rw [heq] at hge hle ⊢
  obtain ⟨hlow, hhigh⟩ := significand_mem_binade (e := e) hm hm'
  have he : e < 0 := (zpow_lt_one_iff_right₀ (one_lt_two (α := ℚ))).1 (by linarith)
  have he' : -31 < e + 1 := (zpow_lt_zpow_iff_right₀ (one_lt_two (α := ℚ))).1 (by norm_num at hge ⊢; linarith)
  have hnonneg : ¬ (m : ℚ) * 2 ^ (e - 52) < 0 := by linarith
  have hcap : e = -1 → m ≤ 2 ^ 53 - 2 ^ 22 := by
    rintro rfl
    norm_num at hle
    have : (m : ℚ) ≤ 2 ^ 53 - 2 ^ 22 := by linarith
    exact_mod_cast this
  have hvalue := toNat_ofInt_of_range (k := 64) (n := (e + 1023) * 2 ^ 52 + (m - 2 ^ 52)) (by omega) (by omega)
  rw [bits64_of_abs_eq (by omega) (by omega) hm hm' (abs_of_nonneg (not_lt.1 hnonneg)), decide_eq_false hnonneg,
    Bool.toNat_false, Nat.cast_zero, mul_zero, zero_add]
  omega

end

section
variable {q : ℤ} (hq : 0 ≤ q) (hlt : q < 2147483647)
include hq

theorem sample_eq_zero_iff : rne64 ((q : ℚ) / 2147483647) = 0 ↔ q = 0 := by
  refine ⟨fun h => ?_, fun h => by simp [h]⟩
  by_contra hne
  have hge := sample_ge (Int.lt_iff_le_and_ne.2 ⟨hq, Ne.symm hne⟩)
  norm_num [h] at hge

theorem sample_nonneg : 0 ≤ rne64 ((q : ℚ) / 2147483647) := by
  have hq' : (0 : ℚ) ≤ q := by exact_mod_cast hq
  exact rne64_nonneg (by positivity)

include hlt

theorem sample_le : rne64 ((q : ℚ) / 2147483647) ≤ 1 - 1 / 2 ^ 31 := by
  obtain rfl | hpos := hq.eq_or_lt
  · norm_num
  · exact sample_le_of_pos hpos hlt

end

/-- The encoding of a sample: 0 exactly for the residue 0, and below that of 1.0 (R144). -/
theorem bits64_sample {q : ℕ} (hlt : q < 2147483647) :
    (bits64 (rne64 ((q : ℚ) / 2147483647)) = 0 ↔ q = 0) ∧
      (bits64 (rne64 ((q : ℚ) / 2147483647))).toNat ≤ 0x3fefffffffc00000 := by
  obtain rfl | hpos := q.eq_zero_or_pos
  · simp [bits64]
  · obtain ⟨hlow, hhigh⟩ := bits64_sample_range (q := q) (by omega) (by omega)
    rw [Int.cast_natCast] at hlow hhigh
    refine ⟨iff_of_false (fun h => ?_) hpos.ne', hhigh⟩
    rw [h] at hlow
    cases hlow

/-- A sample scaled by a width stays in the half-open range from 0 to the width: the gap that it keeps to 1 is wider
than what rounding adds (R148). -/
theorem floor_scaled_range {r : ℚ} (hr : 0 ≤ r) (hr' : r ≤ 1 - 1 / 2 ^ 31) (k : ℤ) :
    (1 ≤ k → 0 ≤ ⌊rne64 (r * k)⌋ ∧ ⌊rne64 (r * k)⌋ ≤ k - 1) ∧ (k ≤ 0 → k ≤ ⌊rne64 (r * k)⌋ ∧ ⌊rne64 (r * k)⌋ ≤ 0) := by
  obtain ⟨hlow, hhigh⟩ := abs_le.1 (abs_rne64_sub_le_mul (r * k))
  constructor
  · intro hk
    have hk' : (1 : ℚ) ≤ k := by exact_mod_cast hk
    have hprod : 0 ≤ r * k := by positivity
    have hgap : r * k ≤ (1 - 1 / 2 ^ 31) * k := mul_le_mul_of_nonneg_right hr' (by linarith)
    rw [abs_of_nonneg hprod] at hlow hhigh
    refine ⟨Int.floor_nonneg.2 (by linarith), Int.le_sub_one_of_lt (Int.floor_lt.2 (by linarith))⟩
  · intro hk
    have hk' : (k : ℚ) ≤ 0 := by exact_mod_cast hk
    have hprod : r * k ≤ 0 := mul_nonpos_of_nonneg_of_nonpos hr hk'
    have hgap : (1 - 1 / 2 ^ 31) * k ≤ r * k := mul_le_mul_of_nonpos_right hr' hk'
    rw [abs_of_nonpos hprod] at hlow hhigh
    have hfloor : (⌊rne64 (r * k)⌋ : ℚ) ≤ 0 := (Int.floor_le _).trans (by linarith)
    exact ⟨Int.le_floor.2 (by linarith), by exact_mod_cast hfloor⟩

theorem scaleSample_eq (r : ℚ) (l u : ℤ) :
    scaleSample r l u = ⌊rne64 (r * ((u - l + 1 : ℤ) : ℚ))⌋ + l := rfl

/-- A scaled sample lies in the range of its bounds, in either order (R148). -/
theorem scaleSample_range {r : ℚ} (hr : 0 ≤ r) (hr' : r ≤ 1 - 1 / 2 ^ 31) (l u : ℤ) :
    (l ≤ u → l ≤ scaleSample r l u ∧ scaleSample r l u ≤ u) ∧
      (u < l → u + 1 ≤ scaleSample r l u ∧ scaleSample r l u ≤ l) := by
  obtain ⟨hpos, hneg⟩ := floor_scaled_range hr hr' (u - l + 1)
  rw [scaleSample_eq]
  omega

/-- Within `1/M31` of a quotient by `M31` that is no integer, the floor is the quotient's. -/
theorem floor_eq_of_near_quotient {a : ℤ} (hdvd : ¬ (2147483647 : ℤ) ∣ a) {p : ℚ}
    (hnear : |p - a / 2147483647| < 1 / 2147483647) : ⌊p⌋ = ⌊(a : ℚ) / 2147483647⌋ := by
  obtain ⟨hlow, hhigh⟩ := abs_lt.1 hnear
  have hsplit : (a : ℚ) = 2147483647 * (a / 2147483647 : ℤ) + (a % 2147483647 : ℤ) := by
    exact_mod_cast (Int.mul_ediv_add_emod a 2147483647).symm
  have hrem : (1 : ℚ) ≤ (a % 2147483647 : ℤ) := by exact_mod_cast (by omega : 1 ≤ a % 2147483647)
  have hrem' : ((a % 2147483647 : ℤ) : ℚ) ≤ 2147483646 := by exact_mod_cast (by omega : a % 2147483647 ≤ 2147483646)
  have hp : ⌊p⌋ = a / 2147483647 := Int.floor_eq_iff.2 ⟨by linarith, by linarith⟩
  have ha : ⌊(a : ℚ) / 2147483647⌋ = a / 2147483647 := Int.floor_eq_iff.2 ⟨by linarith, by linarith⟩
  rw [hp, ha]

/-- For a narrow width the two roundings together move the product by less than `1/M31` (R149). -/
theorem abs_scaled_sub_lt {q k : ℤ} (hq : 0 ≤ q) (hlt : q < 2147483647) (hk : |k| ≤ 2 ^ 21 - 1) :
    |rne64 (rne64 ((q : ℚ) / 2147483647) * k) - (q * k : ℤ) / 2147483647| < 1 / 2147483647 := by
  have hq' : (0 : ℚ) ≤ q := by exact_mod_cast hq
  have hlt' : (q : ℚ) < 2147483647 := by exact_mod_cast hlt
  have hk' : |(k : ℚ)| ≤ 2 ^ 21 - 1 := by exact_mod_cast hk
  have hr := sample_nonneg hq
  have hr' := sample_le hq hlt
  have hfirst := abs_rne64_sub_le_mul ((q : ℚ) / 2147483647)
  rw [abs_of_nonneg (by positivity : (0 : ℚ) ≤ q / 2147483647)] at hfirst
  generalize rne64 ((q : ℚ) / 2147483647) = r at *
  have hsplit : rne64 (r * k) - (q * k : ℤ) / 2147483647 =
      (rne64 (r * k) - r * k) + (r - q / 2147483647) * k := by push_cast; ring
  calc |rne64 (r * k) - (q * k : ℤ) / 2147483647|
      ≤ |rne64 (r * k) - r * k| + |(r - q / 2147483647) * k| := hsplit ▸ abs_add_le _ _
    _ ≤ r * |(k : ℚ)| / 2 ^ 53 + |r - q / 2147483647| * |(k : ℚ)| := by
        rw [abs_mul (r - _)]
        have hsecond := abs_rne64_sub_le_mul (r * k)
        rw [abs_mul, abs_of_nonneg hr] at hsecond
        gcongr
    _ ≤ 1 * |(k : ℚ)| / 2 ^ 53 + 1 / 2 ^ 53 * |(k : ℚ)| := by gcongr <;> linarith
    _ < 1 / 2147483647 := by linarith

/-- For a narrow width the scaled sample is the exact rational floor (R149). -/
theorem floor_scaled_of_narrow {q k : ℤ} (hq : 0 ≤ q) (hlt : q < 2147483647) (hk : |k| ≤ 2 ^ 21 - 1) :
    ⌊rne64 (rne64 ((q : ℚ) / 2147483647) * k)⌋ = ⌊(q : ℚ) * k / 2147483647⌋ := by
  by_cases hdvd : (2147483647 : ℤ) ∣ q * k
  · obtain h | h := (Nat.prime_iff_prime_int.1 prime_m31).dvd_or_dvd hdvd
    · obtain rfl : q = 0 := Int.eq_zero_of_dvd_of_nonneg_of_lt hq hlt h
      simp
    · obtain rfl : k = 0 := Int.eq_zero_of_abs_lt_dvd h (hk.trans_lt (by norm_num))
      simp
  · have hfloor := floor_eq_of_near_quotient hdvd (abs_scaled_sub_lt hq hlt hk)
    rwa [Int.cast_mul] at hfloor

/-- The residue of a draw from the new generator state `v`, in native arithmetic (R142). -/
theorem drawResidue_drawOutput (v : Word64) :
    drawResidue (drawOutput v) = (v.toNat : ℤ) / 2 ^ 33 % 2147483647 := by
  rw [drawResidue, sint32, BitVec.toInt_eq_toNat_of_msb (drawOutput_msb v), drawOutput_toNat]
  rfl

theorem sampleOf_drawResidue (v : Word64) :
    sampleOf (drawResidue (drawOutput v)) = rne64 ((v.toNat / 2 ^ 33 % 2147483647 : ℕ) / 2147483647) := by
  rw [sampleOf_eq, drawResidue_drawOutput]
  push_cast
  rfl

/-- The sample of any draw lies in `[0, 1 − 2^-31]` (R143). -/
theorem sampleOf_drawResidue_range (out : Word32) :
    0 ≤ sampleOf (drawResidue out) ∧ sampleOf (drawResidue out) ≤ 1 - 1 / 2 ^ 31 := by
  obtain ⟨hq, hlt⟩ := drawResidue_range out
  rw [sampleOf_eq]
  exact ⟨sample_nonneg hq, sample_le hq hlt⟩

/-- A write of `S`, written out. -/
theorem setS_eq (s : State) (v : Word64) : s.setS v = { s with S := v } := rfl

theorem sampleR_eq (s : State) :
    sampleR s = (sampleOf (drawResidue (drawOutput (lcgStep s.S))), s.setS (lcgStep s.S)) := rfl

theorem sampleRange_eq (l u : ℤ) (s : State) :
    sampleRange l u s =
      (scaleSample (sampleOf (drawResidue (drawOutput (lcgStep s.S)))) l u, s.setS (lcgStep s.S)) := rfl

/-- A ranged draw lies in the range of its bounds, and so fits 32 bits if they do (R148). -/
theorem sampleRange_range (s : State) {l u : ℤ} (hl : -2 ^ 31 ≤ l) (hl' : l ≤ 2 ^ 31 - 1) (hu : -2 ^ 31 ≤ u)
    (hu' : u ≤ 2 ^ 31 - 1) :
    (l ≤ u → l ≤ (sampleRange l u s).1 ∧ (sampleRange l u s).1 ≤ u) ∧
      (u < l → u + 1 ≤ (sampleRange l u s).1 ∧ (sampleRange l u s).1 ≤ l) ∧
      -2 ^ 31 ≤ (sampleRange l u s).1 ∧ (sampleRange l u s).1 ≤ 2 ^ 31 - 1 := by
  obtain ⟨hr, hr'⟩ := sampleOf_drawResidue_range (drawOutput (lcgStep s.S))
  obtain ⟨hup, hdown⟩ := scaleSample_range hr hr' l u
  rw [sampleRange_eq]
  omega

/-- An integer that fits a signed 32-bit field keeps its value there, extended to 64 bits (R10). -/
theorem sext64_wrap32 {i : ℤ} (h : -2 ^ 31 ≤ i ∧ i ≤ 2 ^ 31 - 1) : sext64 (wrap32 i) = BitVec.ofInt 64 i := by
  rw [sext64, BitVec.signExtend, wrap32_toInt h]

/-- A ranged draw by signed 32-bit bus values, in the 64-bit form of its response (R146, R147). -/
theorem sext64_sampleRange (s : State) {l u : ℤ} (hl : -2 ^ 31 ≤ l ∧ l ≤ 2 ^ 31 - 1)
    (hu : -2 ^ 31 ≤ u ∧ u ≤ 2 ^ 31 - 1) :
    sext64 (wrap32 (sampleRange l u s).1) = BitVec.ofInt 64 (sampleRange l u s).1 := by
  obtain ⟨-, -, hfits⟩ := sampleRange_range s hl.1 hl.2 hu.1 hu.2
  exact sext64_wrap32 hfits

/-- A bus value lies in the signed 32-bit range (R45). -/
theorem toInt_range (x : Word32) : -2 ^ 31 ≤ x.toInt ∧ x.toInt ≤ 2 ^ 31 - 1 :=
  ⟨BitVec.le_toInt x, Int.le_sub_one_of_lt BitVec.toInt_lt⟩

/-- What a draw command leaves, written out: it changes `S` and the response (R21, R204). -/
theorem respond_setS_eq (s : State) (v result : Word64) :
    (s.setS v).respond result = { s with S := v, resp := some { rcode := 0, result := result } } := rfl

theorem exec_samplef (s : State) :
    exec .samplef s =
      .next ((s.setS (lcgStep s.S)).respond (bits64 (sampleOf (drawResidue (drawOutput (lcgStep s.S)))))) := rfl

theorem exec_sample1 (s : State) :
    exec .sample1 s =
      .next ((s.setS (lcgStep s.S)).respond (BitVec.ofInt 64 (sampleRange 1 s.req.x.toInt s).1)) := by
  rw [← sext64_sampleRange s (by norm_num) (toInt_range _)]; rfl

theorem exec_sample2 (s : State) :
    exec .sample2 s =
      .next ((s.setS (lcgStep s.S)).respond (BitVec.ofInt 64 (sampleRange s.req.x.toInt s.req.y.toInt s).1)) := by
  rw [← sext64_sampleRange s (toInt_range _) (toInt_range _)]; rfl

end Sys2Proof.Machine
end

section
/-! PROOFS. The statements about the sample mux (spec/42_sample.md). -/

namespace Sys2Proof.Machine

/-- Settles O24: the significand of a rounding at the value's binade, and the bounds of the sample. -/
theorem roundingIsToNearestTiesToEven : Obligations.RoundingIsToNearestTiesToEven := by
  refine ⟨rne64_zero, fun x hx => ?rounding, fun q k hq hlt hk hk' hne => ?range⟩
  case rounding =>
    obtain ⟨m, hlow, hhigh, near, even, heq⟩ := rne64_spec hx
    obtain ⟨lower, upper⟩ := binade_spec x hx
    exact ⟨binade x, m, lower, upper, hlow, hhigh, near, even, sign_num_eq_ite hx ▸ heq⟩
  case range =>
    have hone : (1 : ℚ) ≤ q := by exact_mod_cast hq
    have hmax : (q : ℚ) < 2147483647 := by exact_mod_cast hlt
    have hr := sample_ge hq
    have hr' := sample_le_of_pos hq hlt
    have hwidth : (1 : ℚ) ≤ |(k : ℚ)| := by exact_mod_cast Int.one_le_abs hne
    have hwidth' : |(k : ℚ)| ≤ 2 ^ 32 := by exact_mod_cast abs_le.2 ⟨by omega, hk'⟩
    rw [abs_mul, abs_of_pos (by linarith)]
    exact ⟨by linarith, by linarith, by nlinarith, by nlinarith⟩

/-- Settles O25, by the encoding of a value with a normal magnitude. -/
theorem bits64IsTheBinary64Layout : Obligations.Bits64IsTheBinary64Layout := by
  refine ⟨if_pos rfl, fun e m he he' hm hm' => ?_⟩
  have hm0 : (0 : ℚ) < m := by exact_mod_cast (show (0 : ℤ) < 2 ^ 52 by norm_num).trans_le hm
  have hpos : (0 : ℚ) < m * 2 ^ (e - 52) := by positivity
  constructor
  · rw [bits64_of_abs_eq he he' hm hm' (abs_of_pos hpos), decide_eq_false hpos.not_gt]
    simp
  · rw [bits64_of_abs_eq he he' hm hm' ((abs_neg _).trans (abs_of_pos hpos)), decide_eq_true (neg_lt_zero.2 hpos)]
    simp

/-- Settles O26, by the residue of a draw in native arithmetic. -/
theorem sampleFunctionsFollowTheirFormulas : Obligations.SampleFunctionsFollowTheirFormulas := by
  intro s
  rw [← lcgStep_eq]
  have hdraw := (lcgStep s.S).isLt
  refine ⟨by omega, ?_, fun l u => ?_⟩
  · rw [sampleR_eq, sampleOf_drawResidue, setS_eq]
  · rw [sampleRange_eq, scaleSample_eq, sampleOf_drawResidue, setS_eq]

/-- The largest quotient rounds to `1 − 2^-31` (R143). -/
theorem largestSample_eq : rne64 ((2147483646 : ℚ) / 2147483647) = 1 - 1 / 2 ^ 31 := by decide +kernel

/-- Settles O27: a quotient by the odd prime `M31` is no dyadic rational, so its rounding is the one nearest value. -/
theorem sampleIsTheUniqueNearestBelowOne : Obligations.SampleIsTheUniqueNearestBelowOne := by
  refine ⟨prime_m31, fun q hq hmax => ?sample, largestSample_eq, ?encoding⟩
  case sample =>
    have hlt : q < 2147483647 := Int.lt_of_le_sub_one hmax
    have hle := sample_le hq hlt
    refine ⟨sample_eq_zero_iff hq, sample_nonneg hq, by linarith, hle, fun hpos => ?_⟩
    refine ⟨?notBinary, ?binary, ?normal, ?near⟩
    case notBinary =>
      rintro ⟨m, e, -, -, -, heq⟩
      exact quotient_ne_dyadic hpos hlt m e heq
    case binary => exact sampleOf_eq q ▸ (sampleOf_spec hq hlt).2.2
    case normal =>
      have hexp : (2 : ℚ) ^ 31 ≤ 2 ^ 1022 := pow_le_pow_right₀ one_le_two (by norm_num)
      exact (one_div_le_one_div_of_le (by positivity) hexp).trans (sample_ge hpos)
    case near => exact fun y hy hne => sample_uniqueNearest hpos hlt hy hne
  case encoding => rw [largestSample_eq]; decide +kernel

/-- Settles O16, by the encoding of the sample; a rejection leaves `S`. -/
theorem sampleFAnswersTheEncodedSample : Obligations.SampleFAnswersTheEncodedSample := by
  refine ⟨fun s => ?performed, by decide, fun s r rest hin hop hne => ?rejected⟩
  case performed =>
    rw [← lcgStep_eq]
    simp only [BitVec.toNat_ushiftRight, Nat.shiftRight_eq_div_pow]
    rw [exec_samplef, respond_setS_eq, sampleOf_drawResidue]
    exact ⟨rfl, bits64_sample (Nat.mod_lt _ (by decide))⟩
  case rejected =>
    have hd : decode r.cmd = .error .reservedField :=
      decode_of_ne_opcodeWord (by decide) (by decide) (by decide) hop hne
    exact ⟨hd, _, step_of_error hin hd, rfl⟩

/-- Settles O17, by the ranged draw from 1 and the decoder's checks. -/
theorem sample1AnswersTheScaledDraw : Obligations.Sample1AnswersTheScaledDraw := by
  refine ⟨fun s => ?performed, by decide, fun _ => decode_of_ne_opcodeWord (by decide) (by decide) (by decide)⟩
  case performed =>
    rw [← lcgStep_eq]
    simp only [BitVec.toNat_ushiftRight, Nat.shiftRight_eq_div_pow]
    rw [exec_sample1, sampleRange_eq, scaleSample_eq, sampleOf_drawResidue, respond_setS_eq, sub_add_cancel]

/-- Settles O18, by the ranged draw between the bus values and the decoder's checks. -/
theorem sample2AnswersTheScaledDraw : Obligations.Sample2AnswersTheScaledDraw := by
  refine ⟨fun s => ?performed, by decide, fun _ => decode_of_ne_opcodeWord (by decide) (by decide) (by decide)⟩
  case performed =>
    rw [← lcgStep_eq]
    simp only [BitVec.toNat_ushiftRight, Nat.shiftRight_eq_div_pow]
    rw [exec_sample2, sampleRange_eq, scaleSample_eq, sampleOf_drawResidue, respond_setS_eq]

/-- Settles O28, by the range of a scaled sample. -/
theorem rangedDrawStaysInItsRange : Obligations.RangedDrawStaysInItsRange :=
  fun s _ _ hl hl' hu hu' => sampleRange_range s hl hl' hu hu'

/-- Settles O29: for a narrow width the two roundings do not reach the next integer. -/
theorem narrowRangesNeedNoRounding : Obligations.NarrowRangesNeedNoRounding := by
  intro s l u _ _ _ _ hk
  obtain ⟨hq, hlt⟩ := drawResidue_range (drawOutput (lcgStep s.S))
  rw [← lcgStep_eq, sampleRange_eq, scaleSample_eq, sampleOf_eq, floor_scaled_of_narrow hq hlt hk,
    drawResidue_drawOutput]

/-- Settles O30: the state that `SEED 1508611278` leaves, with the bounds of V-S13. -/
theorem wideRangesCanRoundUpPastTheFloor : Obligations.WideRangesCanRoundUpPastTheFloor :=
  ⟨State.resetWith 1508611277, 0, 16777215, by decide +kernel⟩

end Sys2Proof.Machine
end

section
/-! PROOFS. The statement about the control command (spec/43_control.md). -/

namespace Sys2Proof.Machine

/-- Settles O19, by the layout of `STATUS` as a number; a rejection records itself in `FAULT`. -/
theorem rdstatAnswersTheStatus : Obligations.RdstatAnswersTheStatus := by
  refine ⟨exec_rdstat, by decide, fun s r rest hin hop hne => ?rejected⟩
  case rejected =>
    have hd : decode r.cmd = .error .reservedField :=
      decode_of_ne_opcodeWord (by decide) (by decide) (by decide) hop hne
    exact ⟨hd, _, step_of_error hin hd, rfl⟩

end Sys2Proof.Machine
end

section
/-! PROOFS. What the host reads back from a response: the value that was encoded (R141), and an integer that fits 32
bits. -/

namespace Sys2Proof.Machine

/-- The fields of a normal encoding, read back: the host gets the value that was encoded (R141). -/
theorem binary64Of_bits64_of_normal {e m : ℤ} (he : -1022 ≤ e) (he' : e ≤ 1023) (hm : 2 ^ 52 ≤ m) (hm' : m < 2 ^ 53) :
    binary64Of (bits64 (m * 2 ^ (e - 52))) = some ((m : ℚ) * 2 ^ (e - 52)) := by
  have hpos : (0 : ℚ) < m * 2 ^ (e - 52) :=
    lt_of_lt_of_le (by positivity) (significand_mem_binade (e := e) hm hm').1
  have hbits := bits64_of_abs_eq he he' hm hm' (abs_of_pos hpos)
  rw [decide_eq_false hpos.not_gt, Bool.toNat_false, Nat.cast_zero, mul_zero, zero_add] at hbits
  have hvalue : ((bits64 (m * 2 ^ (e - 52))).toNat : ℤ) = (e + 1023) * 2 ^ 52 + (m - 2 ^ 52) := by
    rw [hbits]; exact toNat_ofInt_of_range (by omega) (by omega)
  generalize bits64 (m * 2 ^ (e - 52)) = v at hvalue
  have hsign : v.getLsbD 63 = false := Nat.testBit_lt_two_pow (by omega)
  have hexponent : ((v.extractLsb' 52 11).toNat : ℤ) = e + 1023 := by
    rw [BitVec.extractLsb'_toNat, Nat.shiftRight_eq_div_pow]; omega
  have hfraction : ((v.extractLsb' 0 52).toNat : ℤ) = m - 2 ^ 52 := by
    rw [BitVec.extractLsb'_toNat, Nat.shiftRight_eq_div_pow]; omega
  have hsignificand : ((2 ^ 52 + (v.extractLsb' 0 52).toNat : ℕ) : ℤ) = m := by push_cast; omega
  simp only [binary64Of, hsign]
  rw [if_neg (by omega), if_neg (by omega), if_neg Bool.false_ne_true, one_mul, pow2_eq_zpow, hexponent,
    ← Int.cast_natCast, hsignificand, show e + 1023 - 1075 = e - 52 by ring]

theorem binary64Of_zero : binary64Of 0 = some 0 := by
  simp [binary64Of]

/-- A sample other than 0 has a normal encoding (R143). -/
theorem sample_normalForm {q : ℤ} (hq : 1 ≤ q) (hlt : q < 2147483647) :
    ∃ e m : ℤ, -31 ≤ e ∧ e < 0 ∧ 2 ^ 52 ≤ m ∧ m < 2 ^ 53 ∧ rne64 ((q : ℚ) / 2147483647) = m * 2 ^ (e - 52) := by
  have hge := sample_ge hq
  have hle := sample_le_of_pos hq hlt
  obtain ⟨e, m, hm, hm', heq⟩ := rne64_normalForm (quotient_pos hq)
  obtain ⟨hlow, hhigh⟩ := significand_mem_binade (e := e) hm hm'
  rw [← heq] at hlow hhigh
  have he : -31 < e + 1 := (zpow_lt_zpow_iff_right₀ (one_lt_two (α := ℚ))).1 (by norm_num at hge ⊢; linarith)
  have he' : e < 0 := (zpow_lt_one_iff_right₀ (one_lt_two (α := ℚ))).1 (by linarith)
  exact ⟨e, m, by omega, he', hm, hm', heq⟩

/-- The host reads back the sample of a draw exactly (R181, step 4). -/
theorem binary64Of_bits64_sampleOf (out : Word32) :
    binary64Of (bits64 (sampleOf (drawResidue out))) = some (sampleOf (drawResidue out)) := by
  obtain ⟨hq, hlt⟩ := drawResidue_range out
  rw [sampleOf_eq]
  obtain hzero | hpos := hq.eq_or_lt
  · rw [← hzero, Int.cast_zero, zero_div, rne64_zero, bits64, if_pos rfl, binary64Of_zero]
  · obtain ⟨e, m, he, he', hm, hm', heq⟩ := sample_normalForm hpos hlt
    rw [heq, binary64Of_bits64_of_normal (by omega) (by omega) hm hm']

/-- The host reads back a result that fits a signed 32-bit field exactly (R181, step 2). -/
theorem resultInt_ofInt {i : ℤ} (h : -2 ^ 31 ≤ i ∧ i ≤ 2 ^ 31 - 1) : resultInt (BitVec.ofInt 64 i) = i := by
  rw [← sext64_wrap32 h, resultInt, setWidth_sext64, sint32, wrap32_toInt h]

end Sys2Proof.Machine
end

section
/-! PROOFS. The host's color derivation (R181): what each of its four lines does, the channels as a function of the
generator states of its draws, and what another's draw in between changes. -/

namespace Sys2Proof.Machine

/-- The sample of the draw that leaves `v` in `S` (R142). -/
def drawnSample (v : Word64) : ℚ := sampleOf (drawResidue (drawOutput v))

/-- The channel that the host gets from the draw of its `SAMPLE1 128` that leaves `v` in `S` (R181, step 2). -/
def drawnChannel (v : Word64) : ℤ := scaleSample (drawnSample v) 1 128

/-- The three inverted channels, when the host's three draws leave `v`, `w` and `x` in `S` (R181). -/
def channelsOf (v w x : Word64) : List ℤ :=
  [255 - drawnChannel v, 255 - drawnChannel w, 255 - thirdChannel (drawnChannel v) (drawnChannel w) (drawnSample x)]

/-- Every drawn sample keeps its gap to 1 (R143). -/
theorem drawnSample_range (v : Word64) : 0 ≤ drawnSample v ∧ drawnSample v ≤ 1 - 1 / 2 ^ 31 :=
  sampleOf_drawResidue_range _

/-- A drawn channel is never 0 (R182). -/
theorem drawnChannel_range (v : Word64) : 1 ≤ drawnChannel v ∧ drawnChannel v ≤ 128 :=
  (scaleSample_range (drawnSample_range v).1 (drawnSample_range v).2 1 128).1 (by norm_num)

/-- The width 128 is narrow, so a drawn channel is an exact rational floor (R149). -/
theorem drawnChannel_eq (v : Word64) :
    drawnChannel v = (v.toNat : ℤ) / 2 ^ 33 % 2147483647 * 128 / 2147483647 + 1 := by
  obtain ⟨hq, hlt⟩ := drawResidue_range (drawOutput v)
  have hfloor := Rat.floor_intCast_div_natCast (drawResidue (drawOutput v) * 128) 2147483647
  rw [drawnChannel, drawnSample, scaleSample_eq, sampleOf_eq, floor_scaled_of_narrow hq hlt (by norm_num),
    ← drawResidue_drawOutput, sub_add_cancel]
  push_cast at hfloor ⊢
  rw [hfloor]

/-- What the host's SEED leaves in `S` (R121). -/
def seedState (h : Word32) : Word64 := BitVec.ofInt 64 ((h.toInt - 1) % 2 ^ 32)

/-- The host's SEED leaves the seed state of `h`, whatever came before it (R121, R184). -/
theorem hostIssue_seed (h : Word32) (before : List Input) (s : State) :
    ∃ v t, hostIssue before (.seed (sint32 h)) s = some (v, t) ∧ t.inputs = [] ∧ t.S = seedState h := by
  obtain ⟨r, hasm, hdec, hx⟩ := (assemble_oneOperand_of_range (toInt_range h)).1
  obtain ⟨u, v, t, hreq, -, -, hexec, -, -, hin, hissue⟩ := hostIssue_performs hasm hdec rfl before s
  rw [exec_seed, hreq, hx] at hexec
  cases hexec
  exact ⟨v, _, hissue, hin, rfl⟩

/-- The host's `SAMPLE1 128` answers the channel of its draw, which is the next one unless others' inputs came before
it. -/
theorem hostIssue_sample1 (before : List Input) {s : State} (hs : s.inputs = []) :
    ∃ v t, hostIssue before (.sample1 128) s = some (v, t) ∧ resultInt v = drawnChannel t.S ∧ t.inputs = [] ∧
      (before.all Input.quiet = true → t.S = lcgStep s.S) := by
  obtain ⟨r, hasm, hdec, hx⟩ := (assemble_oneOperand_of_range (x := 128) (by norm_num)).2
  obtain ⟨u, v, t, hreq, -, hS, hexec, hresp, -, hin, hissue⟩ := hostIssue_performs hasm hdec rfl before s
  rw [exec_sample1, hreq, hx] at hexec
  cases hexec
  cases hresp
  have hchannel : (sampleRange 1 128 u).1 = drawnChannel (lcgStep u.S) := rfl
  have hrange := drawnChannel_range (lcgStep u.S)
  refine ⟨_, _, hissue, ?_, hin, fun hquiet => congrArg lcgStep (hS (by rwa [hs]))⟩
  rw [hchannel, resultInt_ofInt (by omega)]
  rfl

/-- The host's SAMPLEF answers the sample of its draw, which is the next one unless others' inputs came before it. -/
theorem hostIssue_samplef (before : List Input) {s : State} (hs : s.inputs = []) :
    ∃ v t, hostIssue before .samplef s = some (v, t) ∧ binary64Of v = some (drawnSample t.S) ∧
      (before.all Input.quiet = true → t.S = lcgStep s.S) := by
  obtain ⟨u, v, t, -, -, hS, hexec, hresp, -, -, hissue⟩ :=
    hostIssue_performs (line := .samplef) rfl (decode_requestOf rfl 0 0 0 0) rfl before s
  rw [exec_samplef] at hexec
  cases hexec
  cases hresp
  exact ⟨_, _, hissue, binary64Of_bits64_sampleOf _, fun hquiet => congrArg lcgStep (hS (by rwa [hs]))⟩

/-- Another requester's NEXT32. -/
def overlappingDraw : Request := requestOf .next32 0 0 0 0

/-- Another's NEXT32 ahead of a line is the line issued from the stepped generator (R123, R233). -/
theorem hostIssue_after_overlappingDraw (before : List Input) (line : Asm) {s : State} (hs : s.inputs = []) :
    ∃ t, t.inputs = [] ∧ t.S = lcgStep s.S ∧
      hostIssue (.request overlappingDraw :: before) line s = hostIssue before line t := by
  refine ⟨((s.take overlappingDraw []).setS (lcgStep s.S)).respond (lcgStep s.S >>> 33), rfl, rfl, ?_⟩
  have hstep : ∀ rest, step { s with inputs := .request overlappingDraw :: rest } =
      .next (((s.take overlappingDraw rest).setS (lcgStep s.S)).respond (lcgStep s.S >>> 33)) := fun rest =>
    (step_of_command rfl (decode_requestOf rfl 0 0 0 0)).trans (exec_next32 _)
  match hline : assemble line with
  | none => simp only [hostIssue, hline]
  | some r =>
    simp only [hostIssue, hline, hs, List.nil_append, List.cons_append, List.length_cons, run_of_step _ (hstep _),
      State.respond_inputs, State.setS_inputs, State.take_inputs]
    rfl

/-- A derivation completes from its first draw on, whatever others do: the channels are those of its three draws, which
follow each other if only quiet inputs come between. -/
theorem colorChannels_of_firstDraw {h : Word32} {arrivals : ColorArrivals} {s s1 s2 : State} {v0 v1 : Word64}
    (hseed : hostIssue arrivals.beforeSeed (.seed (sint32 h)) s = some (v0, s1))
    (hfirst : hostIssue arrivals.beforeR (.sample1 128) s1 = some (v1, s2)) (hv1 : resultInt v1 = drawnChannel s2.S)
    (hin : s2.inputs = []) :
    ∃ w t, colorChannels h arrivals s = some (channelsOf s2.S w t.S, t) ∧
      (arrivals.beforeG.all Input.quiet = true → w = lcgStep s2.S) ∧
      (arrivals.beforeF.all Input.quiet = true → t.S = lcgStep w) := by
  obtain ⟨v2, s3, hsecond, hv2, hin3, hS3⟩ := hostIssue_sample1 arrivals.beforeG hin
  obtain ⟨v3, s4, hthird, hv3, hS4⟩ := hostIssue_samplef arrivals.beforeF hin3
  refine ⟨s3.S, s4, ?_, hS3, hS4⟩
  simp only [colorChannels, hseed, hfirst, hsecond, hthird, hv1, hv2, hv3, Option.bind_eq_bind, Option.bind_some]
  rfl

/-- Everything a derivation can do: it completes with the channels of its three draws, whatever others do, and under
exclusive use these are the first three draws after the SEED (R180, R184). -/
theorem colorChannels_eq (h : Word32) (arrivals : ColorArrivals) (s : State) :
    ∃ v w t, colorChannels h arrivals s = some (channelsOf v w t.S, t) ∧
      (arrivals.exclusive = true → v = lcgStep (seedState h) ∧ w = lcgStep v ∧ t.S = lcgStep w) := by
  obtain ⟨v0, s1, hseed, hin1, hS1⟩ := hostIssue_seed h arrivals.beforeSeed s
  obtain ⟨v1, s2, hfirst, hv1, hin2, hS2⟩ := hostIssue_sample1 arrivals.beforeR hin1
  obtain ⟨w, t, hchannels, hw, ht⟩ := colorChannels_of_firstDraw hseed hfirst hv1 hin2
  refine ⟨s2.S, w, t, hchannels, fun hexclusive => ?_⟩
  simp only [ColorArrivals.exclusive, List.all_append, Bool.and_eq_true] at hexclusive
  obtain ⟨⟨hquietR, hquietG⟩, hquietF⟩ := hexclusive
  exact ⟨hS1 ▸ hS2 hquietR, hw hquietG, ht hquietF⟩

/-- Another's NEXT32 right after the SEED makes the second draw the host's first (R184, R233). -/
theorem colorChannels_overlapped (h : Word32) (s : State) :
    ∃ w t, colorChannels h { ColorArrivals.empty with beforeR := [.request overlappingDraw] } s =
      some (channelsOf (lcgStep (lcgStep (seedState h))) w t.S, t) := by
  obtain ⟨v0, s1, hseed, hin1, hS1⟩ := hostIssue_seed h [] s
  obtain ⟨u, hinu, hSu, hoverlap⟩ := hostIssue_after_overlappingDraw [] (.sample1 128) hin1
  obtain ⟨v1, s2, hfirst, hv1, hin2, hS2⟩ := hostIssue_sample1 [] hinu
  obtain ⟨w, t, hchannels, -, -⟩ := colorChannels_of_firstDraw
    (arrivals := { ColorArrivals.empty with beforeR := [.request overlappingDraw] }) hseed
    (hoverlap.trans hfirst) hv1 hin2
  rw [hS2 rfl, hSu, hS1] at hchannels
  exact ⟨w, t, hchannels⟩

/-- The color is made of the channels (R181, step 5). -/
theorem deriveColor_of_colorChannels {h : Word32} {arrivals : ColorArrivals} {s t : State} {channels : List ℤ}
    (hchannels : colorChannels h arrivals s = some (channels, t)) :
    deriveColor h arrivals s = some ((channels.mapM hex2).map fun digits => '#' :: digits.flatten, t) := by
  simp only [deriveColor, hchannels, Option.bind_eq_bind, Option.bind_some]

/-- The first two draws after SEED 42 give the channels 19 and 8 of V-C2. -/
theorem drawnChannels_of_seed42 :
    drawnChannel (lcgStep (seedState 42)) = 19 ∧ drawnChannel (lcgStep (lcgStep (seedState 42))) = 8 := by
  have hseed : (seedState 42).toNat = 41 := rfl
  rw [drawnChannel_eq, drawnChannel_eq, lcgStep_toNat (lcgStep _), lcgStep_toNat, hseed]
  norm_num

/-- The third channel in the first branch of step 3 of R181. -/
theorem thirdChannel_of_lt {r g : ℤ} (f : ℚ) (hsum : r + g < 128) :
    thirdChannel r g f = 128 - r - g + ⌊rne64 (f * (r + g : ℤ))⌋ := by
  rw [thirdChannel, if_pos hsum, if_pos hsum, show 128 - (128 - r - g) = r + g by ring]
  rfl

/-- The third channel in the other branch of step 3 of R181. -/
theorem thirdChannel_of_ge {r g : ℤ} (f : ℚ) (hsum : 128 ≤ r + g) :
    thirdChannel r g f = ⌊rne64 (f * (255 - r - g : ℤ))⌋ := by
  rw [thirdChannel, if_neg (not_lt.2 hsum), if_neg (not_lt.2 hsum), zero_add, sub_zero]
  rfl

end Sys2Proof.Machine
end

section
/-! PROOFS. The statements about the host's color derivation (spec/45_host_color.md). -/

namespace Sys2Proof.Machine

/-- Settles O53: under exclusive use each draw steps the seed state, which `h` alone determines; for the hazard, another
NEXT32 after the SEED makes the host's first channel the second draw's. -/
theorem colorDependsOnTheSeedAloneUnderExclusiveUse : Obligations.ColorDependsOnTheSeedAloneUnderExclusiveUse := by
  constructor
  · intro h arrivals arrivals' s s' hexclusive hexclusive'
    obtain ⟨v, w, t, hchannels, hdraws⟩ := colorChannels_eq h arrivals s
    obtain ⟨v', w', t', hchannels', hdraws'⟩ := colorChannels_eq h arrivals' s'
    obtain ⟨rfl, rfl, hS⟩ := hdraws hexclusive
    obtain ⟨rfl, rfl, hS'⟩ := hdraws' hexclusive'
    rw [hS] at hchannels
    rw [hS'] at hchannels'
    exact ⟨_, _, t, t', hchannels, hchannels', deriveColor_of_colorChannels hchannels,
      deriveColor_of_colorChannels hchannels', hS.trans hS'.symm⟩
  · obtain ⟨v, w, t, hchannels, hdraws⟩ := colorChannels_eq 42 .empty (State.resetWith 99)
    obtain ⟨w', t', hoverlapped⟩ := colorChannels_overlapped 42 (State.resetWith 99)
    obtain ⟨rfl, -, -⟩ := hdraws rfl
    refine ⟨42, overlappingDraw, State.resetWith 99, draws_of_command (decode_requestOf rfl 0 0 0 0), ?_⟩
    rw [hchannels, hoverlapped]
    intro heq
    have hfirst : 255 - drawnChannel (lcgStep (lcgStep (seedState 42))) = 255 - drawnChannel (lcgStep (seedState 42)) :=
      (List.cons.inj (Option.some.inj heq)).1
    obtain ⟨hundisturbed, hdisturbed⟩ := drawnChannels_of_seed42
    omega

/-- Settles O54: the first two channels are ranged draws, and the third scales a sample by a width that is positive,
but 0 for `r + g = 255` and −1 for `r + g = 256`. -/
theorem colorChannelsStayInTheirRanges : Obligations.ColorChannelsStayInTheirRanges := by
  intro h arrivals s
  obtain ⟨v, w, t, hchannels, -⟩ := colorChannels_eq h arrivals s
  obtain ⟨hr, hr'⟩ := drawnChannel_range v
  obtain ⟨hg, hg'⟩ := drawnChannel_range w
  obtain ⟨hf, hf'⟩ := drawnSample_range t.S
  refine ⟨_, _, _, t, hchannels, hr, hr', hg, hg', fun hlow => ?low, fun hmid hmid' => ?middle, fun htop => ?top⟩
  case low =>
    obtain ⟨hscaled, -⟩ := floor_scaled_range hf hf' (drawnChannel v + drawnChannel w)
    rw [thirdChannel_of_lt _ hlow]
    omega
  case middle =>
    obtain ⟨hpos, hzero⟩ := floor_scaled_range hf hf' (255 - drawnChannel v - drawnChannel w)
    rw [thirdChannel_of_ge _ hmid]
    omega
  case top =>
    obtain ⟨-, hneg⟩ := floor_scaled_range hf hf' (255 - drawnChannel v - drawnChannel w)
    rw [thirdChannel_of_ge _ (by omega)]
    omega

end Sys2Proof.Machine
end

section
/-! PROOFS. The statements about the error path and what `FAULT` leaves alone (spec/60_exceptions.md). -/

namespace Sys2Proof.Machine

/-- Settles O32: a decoded command is well formed, so it sets `S` at most and responds. -/
theorem performedCommandsLeaveTheStatus : Obligations.PerformedCommandsLeaveTheStatus := by
  intro s r rest i hin hd
  obtain ⟨v, hexec⟩ := exec_of_wellFormed (wellFormed_of_decode hd) (s.take r rest)
  exact ⟨_, v, (step_of_command hin hd).trans hexec, rfl, rfl, rfl⟩

/-- The same state under another `STATUS`: the second state of R206's comparison. -/
def State.withStatus (fault : Bool) (cause : Code) (s : State) : State := { s with FAULT := fault, CAUSE := cause }

/-- No command but RDSTAT reads `STATUS`, and a well-formed one does not write it (R204, R206). -/
theorem exec_ignores_status {i : Instr} {s t : State} (hwf : i.wellFormed = true) (hrdstat : i ≠ .rdstat)
    (h : exec i s = .next t) (fault : Bool) (cause : Code) :
    exec i (s.withStatus fault cause) = .next (t.withStatus fault cause) := by
  cases i with
  | rdstat => exact absurd rfl hrdstat
  | shr64 n =>
    have hlt : n.toNat < 64 := of_decide_eq_true hwf
    rw [exec_shr64_of_lt hlt] at h ⊢
    cases h
    rfl
  | _ => cases h; rfl

/-- A well-formed command leaves the same `S` under any `STATUS`, and answers the same unless it is RDSTAT. -/
theorem exec_under_any_status {i : Instr} (hwf : i.wellFormed = true) (s : State) (fault : Bool) (cause : Code) :
    ∃ v v', exec i s = .next ((s.setS (sAfter i s)).respond v) ∧
      exec i (s.withStatus fault cause) = .next (((s.withStatus fault cause).setS (sAfter i s)).respond v') ∧
      (i ≠ .rdstat → v = v') := by
  obtain ⟨v, hexec⟩ := exec_of_wellFormed hwf s
  by_cases hrdstat : i = .rdstat
  · obtain ⟨v', hexec'⟩ := exec_of_wellFormed hwf (s.withStatus fault cause)
    exact ⟨v, v', hexec, hexec', fun hne => absurd hrdstat hne⟩
  · exact ⟨v, v, hexec, exec_ignores_status hwf hrdstat hexec fault cause, fun _ => rfl⟩

/-- Two steps from states that differ only in `STATUS`, by the kind of the next input: only RDSTAT's answer shows the
difference (R206). -/
theorem step_under_any_status (s : State) (fault : Bool) (cause : Code) :
    ∃ t t', step s = .next t ∧ step (s.withStatus fault cause) = .next t' ∧
      t.S = t'.S ∧ t.req = t'.req ∧ t.inputs = t'.inputs ∧
      ((∀ r rest, s.inputs = .request r :: rest → decode r.cmd ≠ .command .rdstat) → t.resp = t'.resp) := by
  have hsame : (s.withStatus fault cause).inputs = s.inputs := rfl
  match hin : s.inputs with
  | [] =>
    exact ⟨_, _, step_of_no_input hin, step_of_no_input (hsame.trans hin), rfl, rfl, rfl, fun _ => rfl⟩
  | .reset o :: rest =>
    exact ⟨_, _, step_of_reset hin, step_of_reset (hsame.trans hin), rfl, rfl, rfl, fun _ => rfl⟩
  | .request r :: rest =>
    match hd : decode r.cmd with
    | .error c =>
      exact ⟨_, _, step_of_error hin hd, step_of_error (hsame.trans hin) hd, rfl, rfl, rfl, fun _ => rfl⟩
    | .command i =>
      obtain ⟨v, v', hexec, hexec', hanswer⟩ :=
        exec_under_any_status (wellFormed_of_decode hd) (s.take r rest) fault cause
      refine ⟨_, _, (step_of_command hin hd).trans hexec, (step_of_command (hsame.trans hin) hd).trans hexec',
        rfl, rfl, rfl, fun hother => ?_⟩
      have hrdstat : i ≠ .rdstat := fun hi => hother r rest rfl (hd.trans (congrArg Decoded.command hi))
      rw [State.respond_resp, State.respond_resp, hanswer hrdstat]

/-- Once `FAULT` is set, a step that takes no reset leaves `STATUS` as it is (R203). -/
theorem step_keeps_set_status {s t : State} (hstep : step s = .next t) (hset : s.FAULT = true)
    (hnoreset : ∀ o rest, s.inputs ≠ .reset o :: rest) : t.FAULT = true ∧ t.CAUSE = s.CAUSE := by
  obtain ⟨hfault, hcause⟩ | ⟨o, rest, hin, -, -⟩ | ⟨c, hfault, hcause⟩ := step_status hstep
  · exact ⟨hfault.trans hset, hcause⟩
  · exact absurd hin (hnoreset o rest)
  · exact ⟨hfault, hcause.trans (if_pos hset)⟩

/-- Settles O34: `STATUS` decides nothing but RDSTAT's answer, and a `FAULT` that is set stays with its cause. -/
theorem faultDoesNotChangeWhatCommandsDo : Obligations.FaultDoesNotChangeWhatCommandsDo := by
  intro s fault cause
  obtain ⟨t, t', hstep, hstep', hS, hreq, hin, hresp⟩ := step_under_any_status s fault cause
  exact ⟨t, t', hstep, hstep', hS, hreq, hin, hresp, step_keeps_set_status hstep'⟩

/-- Settles O35, by induction on the number of steps: each answers a next state, and the run goes on from there. -/
theorem everyRunIsSafe : Obligations.EveryRunIsSafe := by
  intro k
  induction k with
  | zero => exact fun s => ⟨s, rfl⟩
  | succ k ih =>
    intro s
    obtain ⟨t, hstep⟩ := stepWith_answers_next Config.sReset s
    obtain ⟨u, hrun⟩ := ih t
    exact ⟨u, (run_of_step k hstep).trans hrun⟩

end Sys2Proof.Machine
end

section
/-! PROOFS. The shared register `S` as a hazard (spec/70_reset_and_hazards.md): SEEDs and draws answer from it alone,
and nothing else writes it. -/

namespace Sys2Proof.Machine

/-- A request that takes part in a sequence of R234: it loads `S` or steps it. -/
def Request.usesS (r : Request) : Bool := r.seeds || r.draws

/-- A request outside a sequence is answered and leaves `S`, whether it is performed or rejected (R234). -/
theorem step_of_not_usesS {s : State} {r : Request} {rest : List Input} (hin : s.inputs = .request r :: rest)
    (hother : r.usesS = false) :
    ∃ t answer, step s = .next t ∧ t.inputs = rest ∧ t.S = s.S ∧ t.resp = some answer := by
  obtain ⟨hseed, hdraw⟩ := Bool.or_eq_false_iff.1 hother
  obtain ⟨t, hstep, hrest, hS⟩ := step_of_request_S hin hseed
  obtain ⟨t', answer, hstep', -, -, hresp⟩ := step_answers_request hin
  obtain rfl := Host.Outcome.next.inj (hstep.symm.trans hstep')
  exact ⟨t, answer, hstep, hrest, by simpa [hdraw] using hS, hresp⟩

/-- A request of a sequence leaves the same `S` and gets the same answer from two states with one `S` (R121, R125). -/
theorem step_of_usesS {s s' : State} {r : Request} {rest rest' : List Input} (hin : s.inputs = .request r :: rest)
    (hin' : s'.inputs = .request r :: rest') (huses : r.usesS = true) (hS : s.S = s'.S) :
    ∃ t t' answer, step s = .next t ∧ step s' = .next t' ∧ t.inputs = rest ∧ t'.inputs = rest' ∧ t.S = t'.S ∧
      t.resp = some answer ∧ t'.resp = some answer := by
  obtain hseed | hdraw := Bool.or_eq_true_iff.1 huses
  · obtain ⟨t, hstep, hrest, hseeded, hresp⟩ := step_of_seeds hin hseed
    obtain ⟨t', hstep', hrest', hseeded', hresp'⟩ := step_of_seeds hin' hseed
    exact ⟨t, t', _, hstep, hstep', hrest, hrest', hseeded.trans hseeded'.symm, hresp, hresp'⟩
  · obtain ⟨i, hdec, hi⟩ := command_of_draws hdraw
    obtain ⟨v, hexec, hexec'⟩ := exec_draw_of_agree hi (s := s.take r rest) (s' := s'.take r rest') hS rfl
    exact ⟨_, _, _, (step_of_command hin hdec).trans hexec, (step_of_command hin' hdec).trans hexec',
      rfl, rfl, rfl, rfl, rfl⟩

/-- A run of requests and the run of its sequence alone, from states with the same `S`, leave the same `S`, and the
sequence gets the same answers (R234). -/
theorem run_filter_usesS (rs : List Request) {s s' : State} (hin : s.inputs = rs.map .request)
    (hin' : s'.inputs = (rs.filter Request.usesS).map .request) (hS : s.S = s'.S) :
    ∃ t u, run rs.length s = .next t ∧ run (rs.filter Request.usesS).length s' = .next u ∧ t.S = u.S ∧
      (exchanges rs.length s).filter (fun e => e.1.usesS) = exchanges (rs.filter Request.usesS).length s' := by
  induction rs generalizing s s' with
  | nil => exact ⟨s, s', rfl, rfl, hS, rfl⟩
  | cons r rs ih =>
    match hr : r.usesS with
    | false =>
      rw [List.filter_cons_of_neg (by simp [hr])] at hin' ⊢
      obtain ⟨t, answer, hstep, hrest, hkept, hresp⟩ := step_of_not_usesS hin hr
      obtain ⟨v, u, hrun, hrun', hSend, hanswers⟩ := ih hrest hin' (hkept.trans hS)
      refine ⟨v, u, (run_of_step _ hstep).trans hrun, hrun', hSend, ?_⟩
      rw [List.length_cons, exchanges_of_request _ hin hstep hresp, List.filter_cons_of_neg (by simp [hr]), hanswers]
    | true =>
      rw [List.filter_cons_of_pos hr] at hin' ⊢
      obtain ⟨t, t', answer, hstep, hstep', hrest, hrest', hagree, hresp, hresp'⟩ := step_of_usesS hin hin' hr hS
      obtain ⟨v, u, hrun, hrun', hSend, hanswers⟩ := ih hrest hrest' hagree
      refine ⟨v, u, (run_of_step _ hstep).trans hrun, (run_of_step _ hstep').trans hrun', hSend, ?_⟩
      rw [List.length_cons, List.length_cons, exchanges_of_request _ hin hstep hresp,
        exchanges_of_request _ hin' hstep' hresp', List.filter_cons, if_pos hr, hanswers]

/-- Settles O47, by the two runs side by side, which agree on `S` before each request of the sequence; and what any
list of requests leaves in `STATUS`. -/
theorem otherCommandsDoNotDisturbTheSequence : Obligations.OtherCommandsDoNotDisturbTheSequence := by
  intro s rs
  obtain ⟨t, u, hrun, hrun', hS, hanswers⟩ :=
    run_filter_usesS rs (s := s.withRequests rs) (s' := s.withRequests (rs.filter Request.usesS)) rfl rfl rfl
  obtain ⟨t', hrun'', hfault, -⟩ := run_withRequests_status s rs
  obtain rfl := Host.Outcome.next.inj (hrun.symm.trans hrun'')
  refine ⟨t, u, hrun, hrun', hS, hanswers, fun ⟨r, hmem, hrejected⟩ => ?_⟩
  have hany : (rs.any fun r => r.rejectedFor.isSome) = true :=
    List.any_eq_true.2 ⟨r, hmem, (rejectedFor_isSome_iff r).2 hrejected⟩
  rw [hfault, hany, Bool.or_true]

/-- The `RESULT` of each exchange of a run. -/
def results (k : Nat) (s : State) : List Word64 := (exchanges k s).map fun e => e.2.result

/-- A SEED answers 0, and the results go on from its seed state (R121). -/
theorem results_of_seeds (k : Nat) {s : State} {r : Request} {rest : List Input}
    (hin : s.inputs = .request r :: rest) (hseed : r.seeds = true) :
    ∃ t, t.inputs = rest ∧ t.S = seedState r.x ∧ results (k + 1) s = 0 :: results k t := by
  obtain ⟨t, hstep, hrest, hS, hresp⟩ := step_of_seeds hin hseed
  exact ⟨t, hrest, hS, by rw [results, exchanges_of_request k hin hstep hresp, List.map_cons, results]⟩

/-- A NEXT32 answers the high bits of the stepped `S`, and the results go on from there (R123). -/
theorem results_of_next32 (k : Nat) {s : State} {r : Request} {rest : List Input}
    (hin : s.inputs = .request r :: rest) (hdec : decode r.cmd = .command .next32) :
    ∃ t, t.inputs = rest ∧ t.S = lcgStep s.S ∧ results (k + 1) s = (lcgStep s.S >>> 33) :: results k t := by
  have hstep := (step_of_command hin hdec).trans (exec_next32 _)
  exact ⟨_, rfl, rfl, by rw [results, exchanges_of_request k hin hstep rfl, List.map_cons, results]; rfl⟩

/-- The first draw after SEED 1, and the first two after SEED 42 (program P6). -/
theorem drawOutputs_of_seeds_1_and_42 :
    lcgStep (seedState 1) >>> 33 = 0 ∧ lcgStep (seedState 42) >>> 33 = 0x12900da0 ∧
      lcgStep (lcgStep (seedState 42)) >>> 33 = 0x07d0b30f := by
  simp only [lcgStep_eq]
  decide

/-- Settles O48: the draws answer from the last SEED before them, whoever sent it. -/
theorem interleavedSequencesCrossTalk : Obligations.InterleavedSequencesCrossTalk := by
  intro s seed draw
  have hseed (n : Word32) : (seed n).seeds = true := (seeds_iff _).2 (show decode 0x10 = .command .seed by decide)
  have hdraw : decode draw.cmd = .command .next32 := by decide
  obtain ⟨hfirst1, hfirst42, hsecond42⟩ := drawOutputs_of_seeds_1_and_42
  constructor
  · obtain ⟨t1, hin1, -, h1⟩ :=
      results_of_seeds 3 (s := s.withRequests [seed 1, seed 42, draw, draw]) rfl (hseed 1)
    obtain ⟨t2, hin2, (hS2 : t2.S = seedState 42), h2⟩ := results_of_seeds 2 hin1 (hseed 42)
    obtain ⟨t3, hin3, hS3, h3⟩ := results_of_next32 1 hin2 hdraw
    obtain ⟨t4, -, -, h4⟩ := results_of_next32 0 hin3 hdraw
    rw [hS2] at hS3 h3
    rw [hS3, hsecond42] at h4
    rw [hfirst42, h4] at h3
    rw [h3] at h2
    rwa [h2] at h1
  · obtain ⟨t1, hin1, (hS1 : t1.S = seedState 1), h1⟩ :=
      results_of_seeds 3 (s := s.withRequests [seed 1, draw, seed 42, draw]) rfl (hseed 1)
    obtain ⟨t2, hin2, -, h2⟩ := results_of_next32 2 hin1 hdraw
    obtain ⟨t3, hin3, (hS3 : t3.S = seedState 42), h3⟩ := results_of_seeds 1 hin2 (hseed 42)
    obtain ⟨t4, -, -, h4⟩ := results_of_next32 0 hin3 hdraw
    rw [hS3, hfirst42] at h4
    rw [h4] at h3
    rw [hS1, hfirst1, h3] at h2
    rwa [h2] at h1

end Sys2Proof.Machine
end
